-- ==== Sys2Proof/Config.lean ====
section
/-! DEFINITION. The parameters of the block (spec 00_scope.md R4): the values the source fixes, and the two the
spec leaves OPEN, which have no body. The other widths and counts of R4 stand in the types: RAW_W = 16, PROD_W = 64,
INT_W = 64 and FRAC_W = 32 in the operands and results of the conversion, SLOT_W = 8 and IDX_W = 8 in Word.lean,
AXES = 3 and ENTRY_BYTES = 6 in CONV3, NPORTS = 3 in Port. -/

namespace Sys2Proof

/-- SCALE_NUM, the multiplier of the conversion (R4, R59). UNVERIFIED against any device (U9; log 11). -/
def Config.scaleNum : Int := 4903325

/-- SCALE_DEN, the divisor of the conversion and the base of the fractional part (R4, R59). -/
def Config.scaleDen : Int := 10000000

/-- QSLOTS, the slots of the queue (R4). -/
def Config.qSlots : Nat := 256

/-- QUSABLE, the most bytes the queue can hold: one slot is always reserved (R4, C7). -/
def Config.qUsable : Nat := 255

/-- KREQ_W, the width of a request word of port K (R4, R40). -/
abbrev Config.kreqW : Nat := 50

/-- PREQ_W, the width of a request word of port P (R4, R40). -/
abbrev Config.preqW : Nat := 11

/-- CREQ_W, the width of a request word of port C (R4, R40). -/
abbrev Config.creqW : Nat := 3

/-- SYNC_STAGES, the flip-flops per bit of an index synchroniser (R4, D13). No rule of the contract depends on it;
the reference circuit of Machine/Circuit.lean has two stages a side. -/
def Config.syncStages : Nat := 2

/-- RES_BITS, the resolution of a sample that really comes from the device. Informative: no rule reads it (R4, R63). -/
def Config.resBits : Nat := 13

/-- SYNC_LATENCY, OPEN (R4, D23, U5; log 14): no body, and no definition of the model reads it. -/
opaque Config.syncLatency : Nat

/-- CONV_LATENCY, OPEN (R4, D30, U11; log 14): no body, and no definition of the model reads it. -/
opaque Config.convLatency : Nat

end Sys2Proof
end

