-- ==== Sys2Proof/Word.lean ====
section
/-! DEFINITION. The word types of the block and their plainest arithmetic (spec 00_scope.md R5, R9). -/

namespace Sys2Proof

/-- One byte: a slot of the queue, an operand byte of a request (R4: SLOT_W = 8). -/
abbrev Byte := BitVec 8

/-- A write index, a read index or a view of one (R4: IDX_W = 8). It is also a slot number (R25). -/
abbrev Index := BitVec 8

end Sys2Proof
end

