-- ==== Sys2Proof/Syntax.lean ====
section
/-! DEFINITION. What can be asked of the block and what it answers, as syntax: the instructions (one constructor per
row of spec/opcode_table.json), the request words of the three ports, the response words as their fields, the
events a schedule is made of, and the lines of the trace notation. Spec 30_encoding.md. -/

namespace Sys2Proof

/-- The operations of the three ports (R50), one constructor per row of the opcode table, in the table's order. -/
inductive Instr where
  /-- NOP.K (R57). -/
  | nopK
  /-- CONV: the two bytes of a raw sample, low byte first (R58). -/
  | conv (lo hi : Byte)
  /-- CONV3: the six bytes of an (x, y, z) triple in stream order (R68). -/
  | conv3 (b0 b1 b2 b3 b4 b5 : Byte)
  /-- RSVD.K, `kop` = 3 (R69). -/
  | rsvdK
  /-- NOP.P (R70). -/
  | nopP
  /-- PUSH: the byte to push (R72). -/
  | push (pdata : Byte)
  /-- QFULL.P (R73). -/
  | qfullP
  /-- QEMPTY.P (R74). -/
  | qemptyP
  /-- RSVD.P, `pop` = 4 to 7 (R75). -/
  | rsvdP
  /-- NOP.C (R78). -/
  | nopC
  /-- POP (R79). -/
  | pop
  /-- QFULL.C (R81). -/
  | qfullC
  /-- QEMPTY.C (R82). -/
  | qemptyC
  /-- FLUSH (R83). -/
  | flush
  /-- RSVD.C5, `cop` = 5 (R85). -/
  | rsvdC5
  /-- RSVD.C6, `cop` = 6 (R85). -/
  | rsvdC6
  /-- RSVD.C7, `cop` = 7 (R85). -/
  | rsvdC7
deriving DecidableEq, Repr

/-- The three request ports, each with its agent and its clock domain (R40). -/
inductive Port where
  /-- The converter's port. -/
  | K
  /-- The producer's port. -/
  | P
  /-- The consumer's port. -/
  | C
deriving DecidableEq, Repr

/-- The port an operation belongs to (R50, R52: an operation of another port cannot be expressed). -/
def Instr.port : Instr → Port
  | .nopK => .K
  | .conv _ _ => .K
  | .conv3 _ _ _ _ _ _ => .K
  | .rsvdK => .K
  | .nopP => .P
  | .push _ => .P
  | .qfullP => .P
  | .qemptyP => .P
  | .rsvdP => .P
  | .nopC => .C
  | .pop => .C
  | .qfullC => .C
  | .qemptyC => .C
  | .flush => .C
  | .rsvdC5 => .C
  | .rsvdC6 => .C
  | .rsvdC7 => .C

/-- A request word together with the port it arrives on (R40, R56: the port fixes the width; who sent it is
not modelled, log 16). -/
inductive Request where
  /-- `KREQ[49:0]` (R41). -/
  | k (word : BitVec Config.kreqW)
  /-- `PREQ[10:0]` (R42). -/
  | p (word : BitVec Config.preqW)
  /-- `CREQ[2:0]` (R43). -/
  | c (word : BitVec Config.creqW)
deriving DecidableEq, Repr

/-- The port a request arrives on. -/
def Request.port : Request → Port
  | .k _ => .K
  | .p _ => .P
  | .c _ => .C

/-- The three statuses a response can carry (R45). The code 0b11 is no status. -/
inductive Status where
  /-- The operation was done. -/
  | ok
  /-- PUSH found the queue full, or POP found it empty. -/
  | fail
  /-- The operation code is reserved. -/
  | illegal
deriving DecidableEq, Repr

/-- The fields of `KRSP` (R44). A field that is not valid is `none` (R8, R126, U1: absent, never a number). -/
structure KRsp where
  kst : Status
  int0 : Option (BitVec 64) := none
  frac0 : Option (BitVec 32) := none
  int1 : Option (BitVec 64) := none
  frac1 : Option (BitVec 32) := none
  int2 : Option (BitVec 64) := none
  frac2 : Option (BitVec 32) := none
deriving DecidableEq, Repr

/-- The fields of `PRSP` (R46). -/
structure PRsp where
  pst : Status
  pflag : Option Bool := none
deriving DecidableEq, Repr

/-- The fields of `CRSP` (R46). -/
structure CRsp where
  cst : Status
  cflag : Option Bool := none
  cdata : Option Byte := none
deriving DecidableEq, Repr

/-- One thing that can happen next: a request at a port, a step of a synchroniser, or an event of the reset input.
The order and the choice of `n` are open (U7, U12); a schedule is a list of these (log 1). -/
inductive Event where
  /-- A request word is presented on its port and served as one atomic step (R40). -/
  | request (r : Request)
  /-- SYNCW(n) (R89). -/
  | syncw (n : Nat)
  /-- SYNCR(n) (R90). -/
  | syncr (n : Nat)
  /-- `rst_n` is driven low (R112). -/
  | rstLow
  /-- `rst_n` is driven high (R112). -/
  | rstHigh
  /-- The clock domain of one port leaves reset (R112, R117). -/
  | leaveReset (d : Port)
deriving DecidableEq, Repr

/-- One line of the trace notation (R54), with the numbers as they are written, and the pseudo-operations of R55. -/
inductive TraceLine where
  /-- `K: NOP` -/
  | kNop
  /-- `K: CONV <raw16>`, in hex or in signed decimal -/
  | kConv (raw16 : Int)
  /-- `K: CONV3 <b0> <b1> <b2> <b3> <b4> <b5>` -/
  | kConv3 (b0 b1 b2 b3 b4 b5 : Nat)
  /-- `K: RSVD` -/
  | kRsvd
  /-- `P: NOP` -/
  | pNop
  /-- `P: PUSH <byte>` -/
  | pPush (byte : Nat)
  /-- `P: QFULL` -/
  | pQfull
  /-- `P: QEMPTY` -/
  | pQempty
  /-- `P: RSVD` -/
  | pRsvd
  /-- `C: NOP` -/
  | cNop
  /-- `C: POP` -/
  | cPop
  /-- `C: QFULL` -/
  | cQfull
  /-- `C: QEMPTY` -/
  | cQempty
  /-- `C: FLUSH` -/
  | cFlush
  /-- `C: RSVD.C5` -/
  | cRsvd5
  /-- `C: RSVD.C6` -/
  | cRsvd6
  /-- `C: RSVD.C7` -/
  | cRsvd7
  /-- `S: SYNCW <n>` -/
  | sSyncw (n : Nat)
  /-- `S: SYNCR <n>` -/
  | sSyncr (n : Nat)
  /-- pseudo `K: CONVB <lo> <hi>` -/
  | kConvb (lo hi : Nat)
  /-- pseudo `K: CONVT <x16> <y16> <z16>` -/
  | kConvt (x16 y16 z16 : Int)
  /-- pseudo `S: SETTLE` -/
  | sSettle
  /-- pseudo `P: PUSH16 <v16>` -/
  | pPush16 (v16 : Int)
deriving DecidableEq, Repr

end Sys2Proof
end

