-- ==== Sys2Proof/WellFormed.lean ====
section
/-! DEFINITION. The checks: which trace lines may be written (spec 30_encoding.md R54, R55) and which response
fields may be valid after which request (R44, R45, R46, R126). -/

namespace Sys2Proof

/-- An instruction is well formed at every operand: CONV accepts every 16-bit operand and PUSH every byte, "so there
is no invalid argument" (R104). The operands are bytes by their type, so there is nothing to refuse. -/
def Instr.wf (_ : Instr) : Bool := true

/-- A byte of a trace line is 0 to 255 (R54). -/
def byteOk (b : Nat) : Bool := b < 256

/-- A 16-bit operand of a trace line: a 16-bit number in hex, or a signed decimal (R54; log 17). -/
def raw16Ok (v : Int) : Bool := -32768 ≤ v && v ≤ 65535

/-- Every number of a trace line is one its operand can hold (R54, R55). How far a synchroniser may step depends on
the state and is checked when the step is taken (R89, R90). -/
def TraceLine.wf : TraceLine → Bool
  | .kConv raw16 => raw16Ok raw16
  | .kConv3 b0 b1 b2 b3 b4 b5 => byteOk b0 && byteOk b1 && byteOk b2 && byteOk b3 && byteOk b4 && byteOk b5
  | .pPush byte => byteOk byte
  | .kConvb lo hi => byteOk lo && byteOk hi
  | .kConvt x y z => raw16Ok x && raw16Ok y && raw16Ok z
  | .pPush16 v => raw16Ok v
  | .kNop => true
  | .kRsvd => true
  | .pNop => true
  | .pQfull => true
  | .pQempty => true
  | .pRsvd => true
  | .cNop => true
  | .cPop => true
  | .cQfull => true
  | .cQempty => true
  | .cFlush => true
  | .cRsvd5 => true
  | .cRsvd6 => true
  | .cRsvd7 => true
  | .sSyncw _ => true
  | .sSyncr _ => true
  | .sSettle => true

/-- `int0` and `frac0` are valid after this request when the status is OK (R44). -/
def Instr.givesSample0 : Instr → Bool
  | .conv _ _ => true
  | .conv3 _ _ _ _ _ _ => true
  | _ => false

/-- `int1`, `frac1`, `int2`, `frac2` are valid after this request when the status is OK (R44). -/
def Instr.givesSample12 : Instr → Bool
  | .conv3 _ _ _ _ _ _ => true
  | _ => false

/-- The flag of the response is valid after this request when the status is OK (R46). -/
def Instr.givesFlag : Instr → Bool
  | .qfullP => true
  | .qemptyP => true
  | .qfullC => true
  | .qemptyC => true
  | _ => false

/-- `cdata` is valid after this request when the status is OK (R46). -/
def Instr.givesByte : Instr → Bool
  | .pop => true
  | _ => false

/-- A response of port K to request `i` has a value in exactly the fields that R44 calls valid. -/
def KRsp.wf (i : Instr) (r : KRsp) : Bool :=
  let valid0 := r.kst == .ok && i.givesSample0
  let valid12 := r.kst == .ok && i.givesSample12
  r.int0.isSome == valid0 && r.frac0.isSome == valid0 &&
    r.int1.isSome == valid12 && r.frac1.isSome == valid12 && r.int2.isSome == valid12 && r.frac2.isSome == valid12

/-- A response of port P to request `i` has a flag exactly where R46 calls it valid. -/
def PRsp.wf (i : Instr) (r : PRsp) : Bool :=
  r.pflag.isSome == (r.pst == .ok && i.givesFlag)

/-- A response of port C to request `i` has a flag and a byte exactly where R46 calls them valid. -/
def CRsp.wf (i : Instr) (r : CRsp) : Bool :=
  r.cflag.isSome == (r.cst == .ok && i.givesFlag) && r.cdata.isSome == (r.cst == .ok && i.givesByte)

end Sys2Proof
end

