-- ==== Sys2Proof/Decode.lean ====
section
/-! DEFINITION. Request words to instructions and back, response fields to response words and back (spec
30_encoding.md R40 to R50, R56). Decoding a request is total: every word of a port's width is an operation. -/

namespace Sys2Proof

/-! ### Requests -/

/-- Byte `j` of `kdata` is `kdata[8j+7 : 8j]` (R41). -/
def kdataByte (w : BitVec Config.kreqW) (j : Nat) : Byte := w.extractLsb' (8 * j) 8

/-- Port K: `kop` is `KREQ[49:48]` (R41, R50). -/
def decodeK (w : BitVec Config.kreqW) : Instr :=
  let kop := w.extractLsb' 48 2
  if kop = 0b00#2 then .nopK
  else if kop = 0b01#2 then .conv (kdataByte w 0) (kdataByte w 1)
  else if kop = 0b10#2 then
    .conv3 (kdataByte w 0) (kdataByte w 1) (kdataByte w 2) (kdataByte w 3) (kdataByte w 4) (kdataByte w 5)
  else .rsvdK

/-- Port P: `pop` is `PREQ[10:8]`, `pdata` is `PREQ[7:0]`; codes 4 to 7 are reserved (R42, R50, R75). -/
def decodeP (w : BitVec Config.preqW) : Instr :=
  let pop := w.extractLsb' 8 3
  if pop = 0b000#3 then .nopP
  else if pop = 0b001#3 then .push (w.extractLsb' 0 8)
  else if pop = 0b010#3 then .qfullP
  else if pop = 0b011#3 then .qemptyP
  else .rsvdP

/-- Port C: the whole word is `cop` (R43, R50). -/
def decodeC (w : BitVec Config.creqW) : Instr :=
  if w = 0b000#3 then .nopC
  else if w = 0b001#3 then .pop
  else if w = 0b010#3 then .qfullC
  else if w = 0b011#3 then .qemptyC
  else if w = 0b100#3 then .flush
  else if w = 0b101#3 then .rsvdC5
  else if w = 0b110#3 then .rsvdC6
  else .rsvdC7

/-- The instruction a request asks for. Total and unambiguous (R50). -/
def decode : Request → Instr
  | .k w => decodeK w
  | .p w => decodeP w
  | .c w => decodeC w

/-- `KREQ` of CONV: `kop`, 32 ignored bits, `hi`, `lo` (R50). -/
def convWord (lo hi : Byte) : BitVec Config.kreqW := 0b01#2 ++ 0#32 ++ hi ++ lo

/-- `KREQ` of CONV3: `kop`, then byte 5 down to byte 0 (R50). -/
def conv3Word (b0 b1 b2 b3 b4 b5 : Byte) : BitVec Config.kreqW := 0b10#2 ++ b5 ++ b4 ++ b3 ++ b2 ++ b1 ++ b0

/-- `PREQ` of PUSH: `pop`, `pdata` (R50). -/
def pushWord (pdata : Byte) : BitVec Config.preqW := 0b001#3 ++ pdata

/-- The request word of an instruction, ignored bits zero, RSVD.P as code 4 (R41 to R43, R50; log 18). -/
def encode : Instr → Request
  | .nopK => .k 0#50
  | .conv lo hi => .k (convWord lo hi)
  | .conv3 b0 b1 b2 b3 b4 b5 => .k (conv3Word b0 b1 b2 b3 b4 b5)
  | .rsvdK => .k (0b11#2 ++ 0#48)
  | .nopP => .p 0#11
  | .push pdata => .p (pushWord pdata)
  | .qfullP => .p (0b010#3 ++ 0#8)
  | .qemptyP => .p (0b011#3 ++ 0#8)
  | .rsvdP => .p (0b100#3 ++ 0#8)
  | .nopC => .c 0b000#3
  | .pop => .c 0b001#3
  | .qfullC => .c 0b010#3
  | .qemptyC => .c 0b011#3
  | .flush => .c 0b100#3
  | .rsvdC5 => .c 0b101#3
  | .rsvdC6 => .c 0b110#3
  | .rsvdC7 => .c 0b111#3

/-! ### The opcode map as data (R50) -/

/-- One row of the opcode map: a word of the port belongs to the row when `word AND mask = pattern`. -/
structure OpcodeRow where
  mnemonic : String
  port : Port
  pattern : Nat
  mask : Nat
deriving DecidableEq, Repr

/-- The complete map, match and mask columns as R50 prints them. -/
def opcodeMap : List OpcodeRow :=
  [ ⟨"NOP.K", .K, 0x0000000000000, 0x3000000000000⟩,
    ⟨"CONV", .K, 0x1000000000000, 0x3000000000000⟩,
    ⟨"CONV3", .K, 0x2000000000000, 0x3000000000000⟩,
    ⟨"RSVD.K", .K, 0x3000000000000, 0x3000000000000⟩,
    ⟨"NOP.P", .P, 0x000, 0x700⟩,
    ⟨"PUSH", .P, 0x100, 0x700⟩,
    ⟨"QFULL.P", .P, 0x200, 0x700⟩,
    ⟨"QEMPTY.P", .P, 0x300, 0x700⟩,
    ⟨"RSVD.P", .P, 0x400, 0x400⟩ ] ++
  [ ⟨"NOP.C", .C, 0x0, 0x7⟩,
    ⟨"POP", .C, 0x1, 0x7⟩,
    ⟨"QFULL.C", .C, 0x2, 0x7⟩,
    ⟨"QEMPTY.C", .C, 0x3, 0x7⟩,
    ⟨"FLUSH", .C, 0x4, 0x7⟩,
    ⟨"RSVD.C5", .C, 0x5, 0x7⟩,
    ⟨"RSVD.C6", .C, 0x6, 0x7⟩,
    ⟨"RSVD.C7", .C, 0x7, 0x7⟩ ]

/-- The mnemonic of an instruction (R50). -/
def Instr.mnemonic : Instr → String
  | .nopK => "NOP.K"
  | .conv _ _ => "CONV"
  | .conv3 _ _ _ _ _ _ => "CONV3"
  | .rsvdK => "RSVD.K"
  | .nopP => "NOP.P"
  | .push _ => "PUSH"
  | .qfullP => "QFULL.P"
  | .qemptyP => "QEMPTY.P"
  | .rsvdP => "RSVD.P"
  | .nopC => "NOP.C"
  | .pop => "POP"
  | .qfullC => "QFULL.C"
  | .qemptyC => "QEMPTY.C"
  | .flush => "FLUSH"
  | .rsvdC5 => "RSVD.C5"
  | .rsvdC6 => "RSVD.C6"
  | .rsvdC7 => "RSVD.C7"

/-- The number a request word is. -/
def Request.toNat : Request → Nat
  | .k w => w.toNat
  | .p w => w.toNat
  | .c w => w.toNat

/-- A request belongs to a row of the opcode map. -/
def OpcodeRow.covers (row : OpcodeRow) (r : Request) : Bool :=
  row.port == r.port && (r.toNat &&& row.mask) == row.pattern

/-! ### Numbers from outside as request words -/

/-- Why a number is no request word. -/
inductive RequestError where
  /-- No port has request words of that many bits. -/
  | noSuchPort (nbits : Nat)
  /-- The number has bits above the width of the port's request word. -/
  | bitsAboveWord (p : Port)
deriving DecidableEq, Repr

/-- The number `w`, given as `nbits` bits, as a request: the width says the port, since the three widths differ (R40,
R56; log 12). One byte holds a word of port C, two bytes one of port P, more (up to eight) one of port K. -/
def requestOfBits (nbits w : Nat) : Except RequestError Request :=
  if nbits = 0 then .error (.noSuchPort nbits)
  else if nbits ≤ 8 then
    if w < 2 ^ Config.creqW then .ok (.c (BitVec.ofNat Config.creqW w)) else .error (.bitsAboveWord .C)
  else if nbits ≤ 16 then
    if w < 2 ^ Config.preqW then .ok (.p (BitVec.ofNat Config.preqW w)) else .error (.bitsAboveWord .P)
  else if nbits ≤ 64 then
    if w < 2 ^ Config.kreqW then .ok (.k (BitVec.ofNat Config.kreqW w)) else .error (.bitsAboveWord .K)
  else .error (.noSuchPort nbits)

/-- The instruction the decoder reads from the bits `w` of an opcode-table row of `nbits` bits. -/
def decodeTableWord (nbits w : Nat) : Option Instr :=
  match requestOfBits nbits w with
  | .ok r => some (decode r)
  | .error _ => none

/-! ### Responses -/

/-- The status codes (R45). -/
def statusCode : Status → BitVec 2
  | .ok => 0b00#2
  | .fail => 0b01#2
  | .illegal => 0b10#2

/-- Why a response word cannot be read: its status is 0b11, which the block never produces (R45, U10). -/
inductive ResponseError where
  | noSuchStatus
deriving DecidableEq, Repr

/-- The status of a code; 0b11 is none (R45, U10). -/
def statusOfCode (c : BitVec 2) : Except ResponseError Status :=
  if c = 0b00#2 then .ok .ok
  else if c = 0b01#2 then .ok .fail
  else if c = 0b10#2 then .ok .illegal
  else .error .noSuchStatus

/-- `KRSP[289:0]` (R44). A field that is not valid has no defined value: its bits are those of `filler`, of which
nothing is known (R126, U1; log 6). -/
def encodeKRsp (r : KRsp) (filler : BitVec 290) : BitVec 290 :=
  statusCode r.kst
    ++ r.int2.getD (filler.extractLsb' 224 64) ++ r.frac2.getD (filler.extractLsb' 192 32)
    ++ r.int1.getD (filler.extractLsb' 128 64) ++ r.frac1.getD (filler.extractLsb' 96 32)
    ++ r.int0.getD (filler.extractLsb' 32 64) ++ r.frac0.getD (filler.extractLsb' 0 32)

/-- `PRSP[2:0]` (R46). -/
def encodePRsp (r : PRsp) (filler : BitVec 3) : BitVec 3 :=
  statusCode r.pst ++ BitVec.ofBool (r.pflag.getD (filler.getLsbD 0))

/-- `CRSP[10:0]` (R46). -/
def encodeCRsp (r : CRsp) (filler : BitVec 11) : BitVec 11 :=
  statusCode r.cst ++ BitVec.ofBool (r.cflag.getD (filler.getLsbD 8)) ++ r.cdata.getD (filler.extractLsb' 0 8)

/-- A field is read only where it is valid. -/
def whenValid {α : Type} (valid : Bool) (a : α) : Option α := if valid then some a else none

/-- The response that a word of port K carries to request `i`: the fields R44 calls valid, the others absent. -/
def decodeKRsp (i : Instr) (w : BitVec 290) : Except ResponseError KRsp :=
  match statusOfCode (w.extractLsb' 288 2) with
  | .error e => .error e
  | .ok kst =>
    let valid0 := kst == .ok && i.givesSample0
    let valid12 := kst == .ok && i.givesSample12
    .ok { kst := kst
          int0 := whenValid valid0 (w.extractLsb' 32 64)
          frac0 := whenValid valid0 (w.extractLsb' 0 32)
          int1 := whenValid valid12 (w.extractLsb' 128 64)
          frac1 := whenValid valid12 (w.extractLsb' 96 32)
          int2 := whenValid valid12 (w.extractLsb' 224 64)
          frac2 := whenValid valid12 (w.extractLsb' 192 32) }

/-- The response that a word of port P carries to request `i` (R46). -/
def decodePRsp (i : Instr) (w : BitVec 3) : Except ResponseError PRsp :=
  match statusOfCode (w.extractLsb' 1 2) with
  | .error e => .error e
  | .ok pst => .ok { pst := pst, pflag := whenValid (pst == .ok && i.givesFlag) (w.getLsbD 0) }

/-- The response that a word of port C carries to request `i` (R46). -/
def decodeCRsp (i : Instr) (w : BitVec 11) : Except ResponseError CRsp :=
  match statusOfCode (w.extractLsb' 9 2) with
  | .error e => .error e
  | .ok cst =>
    .ok { cst := cst
          cflag := whenValid (cst == .ok && i.givesFlag) (w.getLsbD 8)
          cdata := whenValid (cst == .ok && i.givesByte) (w.extractLsb' 0 8) }

end Sys2Proof
end

