-- ==== Sys2Proof/Machine/State.lean ====
section
/-! DEFINITION. The state of the block (spec 10_state.md R10), the reasons a step can stop, and the state after
reset (R24, R113). -/

namespace Sys2Proof.Machine

/-- The slot memory: (slot, byte) pairs, slots strictly rising and below 256. A slot that is not listed has no value
(R24, R114). -/
abbrev Memory := List Host.Cell

/-- The whole state. The first five fields are the architectural state of R10; the rest are the ports' response
words, the reset input with the domains' release, and the events still to happen. -/
structure State where
  /-- `MEM[0..255]` (R13). -/
  mem : Memory
  /-- `WR`, the write index (R14). -/
  wr : Index
  /-- `RD`, the read index (R15). -/
  rd : Index
  /-- `RDV`, the producer's view of `RD` (R16). -/
  rdv : Index
  /-- `WRV`, the consumer's view of `WR` (R17). -/
  wrv : Index
  /-- The latest response on port K (R44; log 7). -/
  krsp : Option KRsp
  /-- The latest response on port P (R46; log 7). -/
  prsp : Option PRsp
  /-- The latest response on port C (R46; log 7). -/
  crsp : Option CRsp
  /-- The level of the reset input `rst_n`; false is low, active (R112). -/
  rstN : Bool
  /-- The clk_k domain has left reset (R112, R117). -/
  upK : Bool
  /-- The clk_p domain has left reset (R112, R117). -/
  upP : Bool
  /-- The clk_c domain has left reset (R112, R117). -/
  upC : Bool
  /-- What happens next, in order: the model's own field, not the spec's (R12, R23, U7, U12; log 1). -/
  schedule : List Event
deriving DecidableEq, Repr

/-- Why the machine stops with a fault. -/
inductive Fault where
  /-- Raised by POP when the slot it would read has not been written since reset (R24, R114: such a slot has no
  value). Safe: no state reachable from reset can meet it (R19, last sentence). -/
  | unwrittenSlot (slot : Index)
deriving DecidableEq, Repr

/-- Why a step has no meaning. -/
inductive Refusal where
  /-- For an arm of `exec` that has no meaning yet; no arm uses it. Safe: nothing runs. -/
  | notModelled (mnemonic : String)
  /-- Raised when a request is presented before all three domains are out of reset (R112, R117, U4: refuse). Safe:
  nothing is said about what follows. -/
  | requestInReset (p : Port)
  /-- Raised when a synchroniser is scheduled while `rst_n` is low (R112: no synchroniser steps). Safe: the block takes
  no such step. -/
  | syncInReset
  /-- Raised when SYNCW(n) is scheduled with `n` above `dist(WRV, WR)` (R89: not enabled). Safe: the block takes no
  such step. -/
  | syncwNotEnabled (n : Nat)
  /-- Raised when SYNCR(n) is scheduled with `n` above `dist(RDV, RD)` (R90: not enabled). Safe: the block takes no
  such step. -/
  | syncrNotEnabled (n : Nat)
  /-- Raised when a domain is scheduled to leave reset while `rst_n` is low (R112: the release follows the input). Safe:
  the block takes no such step. -/
  | releaseWhileLow (p : Port)
deriving DecidableEq, Repr

/-- The machine right after reset, all domains released (R24, R113, U4): the four indices 0, no slot with a value, no
response yet, nothing scheduled. -/
def State.reset : State :=
  { mem := [], wr := 0, rd := 0, rdv := 0, wrv := 0,
    krsp := none, prsp := none, crsp := none,
    rstN := true, upK := true, upP := true, upC := true, schedule := [] }

end Sys2Proof.Machine
end

