-- ==== Sys2Proof/Machine/Ops.lean ====
section
/-! DEFINITION. The named operations the meanings are made of: the slot memory (spec 20_memory.md R25), the index
arithmetic (00_scope.md R9, 41_queue_producer.md R71), the conversion function (40_converter.md R59), the responses
(30_encoding.md R44 to R46) and the two answers that stand where another machine would take an exception (60_exceptions.md
R100, R107). -/

namespace Sys2Proof.Machine

/-! ### The slot memory -/

/-- The byte in a slot; a slot nothing has written has none (R24, R114). -/
def Memory.read : Memory → Nat → Option Byte
  | [], _ => none
  | (b, v) :: m, a => if a = b then some v else Memory.read m a

/-- `MemWrite(a, 1, v)` (R7), keeping slots strictly rising. -/
def Memory.write : Memory → Nat → Byte → Memory
  | [], a, v => [(a, v)]
  | (b, w) :: m, a, v =>
    if a < b then (a, v) :: (b, w) :: m
    else if a = b then (a, v) :: m
    else (b, w) :: Memory.write m a v

/-- The canonical form: slots strictly rising, all of them in the address space (R25, R26). -/
abbrev Memory.wf (m : Memory) : Prop :=
  (m.map Prod.fst).Pairwise (· < ·) ∧ ∀ c ∈ m, c.1 < Config.qSlots

/-- `MEM[a]` for a slot number (R7, R25). -/
def slotRead (m : Memory) (a : Index) : Option Byte := m.read a.toNat

/-- `MEM[a] <- v` for a slot number (R7, R25). -/
def slotWrite (m : Memory) (a : Index) (v : Byte) : Memory := m.write a.toNat v

/-! ### Index arithmetic -/

/-- `u8(i + 1)`: advancing an index by one, 255 to 0 (R9, R71). -/
def advance (i : Index) : Index := i + 1

/-- `u8(i + n)` (R89, R90). -/
def advanceBy (i : Index) (n : Nat) : Index := i + BitVec.ofNat 8 n

/-- `dist(a, b) = (b - a) mod 256` (R9). Notation for contracts and invariants; no port operation computes it (R71). -/
def ringDist (a b : Index) : Nat := (b - a).toNat

/-! ### The conversion -/

/-- `phys(raw)`: the truncating quotient and remainder of `raw * SCALE_NUM` by `SCALE_DEN` (R6, R59, R61). -/
def phys (raw : Int) : Int × Int :=
  ((raw * Config.scaleNum).tdiv Config.scaleDen, (raw * Config.scaleNum).tmod Config.scaleDen)

/-- `twos_64` of the integer part (R5, R44, R67). -/
def intField (raw : Int) : BitVec 64 := BitVec.ofInt 64 (phys raw).1

/-- `twos_32` of the fractional part (R5, R44, R67). -/
def fracField (raw : Int) : BitVec 32 := BitVec.ofInt 32 (phys raw).2

/-- The conversion as the source's "64-bit signed arithmetic": sign-extend to 64 bits, multiply, signed divide and
remainder in 64 bits, keep the low 32 bits of the remainder (R4, R60). -/
def physDatapath (raw : BitVec 16) : BitVec 64 × BitVec 32 :=
  let scaled := raw.signExtend 64 * BitVec.ofInt 64 Config.scaleNum
  let den := BitVec.ofInt 64 Config.scaleDen
  (scaled.sdiv den, (scaled.srem den).setWidth 32)

/-! ### Responses

`respond(st, fields...)` (R8): the response of the step stands on the port, and nothing else changes. -/

/-- A response on port K. -/
def respondK (r : KRsp) (s : State) : State := { s with krsp := some r }

/-- A response on port P. -/
def respondP (r : PRsp) (s : State) : State := { s with prsp := some r }

/-- A response on port C. -/
def respondC (r : CRsp) (s : State) : State := { s with crsp := some r }

/-- A response that carries a status and nothing else (R45). It stands in the place of taking an exception: there is no
trap entry, no state is saved and no control is transferred (R107); an operation that cannot be done answers its
non-OK status on its port and changes nothing (R100). There is no return, since nothing was entered (R108). -/
def answerStatus (p : Port) (st : Status) (s : State) : State :=
  match p with
  | .K => respondK { kst := st } s
  | .P => respondP { pst := st } s
  | .C => respondC { cst := st } s

/-- The answer to a PUSH that finds the queue full or a POP that finds it empty (R100 to R102). -/
def answerFail (p : Port) (s : State) : State := answerStatus p .fail s

/-- The answer to a reserved operation code (R51, R103). -/
def answerIllegal (p : Port) (s : State) : State := answerStatus p .illegal s

/-- The answer of a no-operation (R53). -/
def answerOk (p : Port) (s : State) : State := answerStatus p .ok s

/-! ### Queue updates -/

/-- The two writes of a successful PUSH: the slot, then the index (R36, R72). -/
def storeByte (v : Byte) (s : State) : State :=
  { s with mem := slotWrite s.mem s.wr v, wr := advance s.wr }

/-- `RD <- i` (R79, R83). -/
def setRd (i : Index) (s : State) : State := { s with rd := i }

/-- `WRV <- i` (R89). -/
def setWrv (i : Index) (s : State) : State := { s with wrv := i }

/-- `RDV <- i` (R90). -/
def setRdv (i : Index) (s : State) : State := { s with rdv := i }

/-- The events left to happen. -/
def setSchedule (es : List Event) (s : State) : State := { s with schedule := es }

/-! ### Reset -/

/-- The whole block in its reset state while `rst_n` is low: the values of R24, the responses discarded (R112, R113,
R114, R116). What is still scheduled stays: it is outside the block (log 9, log 10). -/
def assertReset (s : State) : State :=
  { State.reset with rstN := false, upK := false, upP := false, upC := false, schedule := s.schedule }

/-- `rst_n` is released; each domain follows at a time of its own (R112). -/
def releaseReset (s : State) : State := { s with rstN := true }

/-- The domain of one port leaves reset (R112, R117). -/
def domainUp (p : Port) (s : State) : State :=
  match p with
  | .K => { s with upK := true }
  | .P => { s with upP := true }
  | .C => { s with upC := true }

/-- `rst_n` is high and all three domains have left reset: requests may be issued (R117). -/
def State.outOfReset (s : State) : Bool := s.rstN && s.upK && s.upP && s.upC

end Sys2Proof.Machine
end

