-- ==== Sys2Proof/Machine/Flags.lean ====
section
/-! DEFINITION. The status answers (spec 10_state.md R20): computed when asked, from one index and one view, never
stored. -/

namespace Sys2Proof.Machine

/-- `full_p`: `u8(WR + 1) = RDV` (R20). -/
def fullP (s : State) : Bool := advance s.wr == s.rdv

/-- `empty_p`: `RDV = WR` (R20). -/
def emptyP (s : State) : Bool := s.rdv == s.wr

/-- `full_c`: `u8(WRV + 1) = RD` (R20). -/
def fullC (s : State) : Bool := advance s.wrv == s.rd

/-- `empty_c`: `RD = WRV` (R20). -/
def emptyC (s : State) : Bool := s.rd == s.wrv

/-- `full_true`: `u8(WR + 1) = RD`. No operation returns it (R20). -/
def fullTrue (s : State) : Bool := advance s.wr == s.rd

/-- `empty_true`: `RD = WR`. No operation returns it (R20). -/
def emptyTrue (s : State) : Bool := s.rd == s.wr

end Sys2Proof.Machine
end

