-- ==== Sys2Proof/Machine/Consumer.lean ====
section
/-! DEFINITION. The meanings of port C, the consumer's side of the byte queue (spec 42_queue_consumer.md). -/

namespace Sys2Proof.Machine

/-- NOP.C: `respond(OK)` (R78). -/
def execNopC (s : State) : Host.Outcome State Fault Refusal := .next (answerOk .C s)

/-- POP: FAIL when the queue is empty as the consumer sees it, else load from `RD` and advance it; memory is never
written (R34, R79). A slot that was never written has no value to return (R24, R114): the machine stops (log 5). -/
def execPop (s : State) : Host.Outcome State Fault Refusal :=
  if emptyC s then .next (answerFail .C s)
  else
    match slotRead s.mem s.rd with
    | none => .fault (.unwrittenSlot s.rd)
    | some b => .next (respondC { cst := .ok, cdata := some b } (setRd (advance s.rd) s))

/-- QFULL.C: `cflag` is `full_c` (R81). -/
def execQfullC (s : State) : Host.Outcome State Fault Refusal :=
  .next (respondC { cst := .ok, cflag := some (fullC s) } s)

/-- QEMPTY.C: `cflag` is `empty_c` (R82). -/
def execQemptyC (s : State) : Host.Outcome State Fault Refusal :=
  .next (respondC { cst := .ok, cflag := some (emptyC s) } s)

/-- FLUSH: `RD <- WRV` (R83). -/
def execFlush (s : State) : Host.Outcome State Fault Refusal :=
  .next (answerOk .C (setRd s.wrv s))

/-- RSVD.C5: `respond(ILLEGAL)` (R85). -/
def execRsvdC5 (s : State) : Host.Outcome State Fault Refusal := .next (answerIllegal .C s)

/-- RSVD.C6: `respond(ILLEGAL)` (R85). -/
def execRsvdC6 (s : State) : Host.Outcome State Fault Refusal := .next (answerIllegal .C s)

/-- RSVD.C7: `respond(ILLEGAL)` (R85). -/
def execRsvdC7 (s : State) : Host.Outcome State Fault Refusal := .next (answerIllegal .C s)

end Sys2Proof.Machine
end

