-- ==== Sys2Proof/Machine/Operands.lean ====
section
/-! DEFINITION. Operand assembly (spec 30_encoding.md R47, R48): a raw sample from two bytes, low byte first. PUSH
uses its byte unchanged (R49), and no other operation has an operand. -/

namespace Sys2Proof.Machine

/-- The 16-bit word of a raw sample, `{hi, lo}` (R29, R47). -/
def rawWord (lo hi : Byte) : BitVec 16 := hi ++ lo

/-- `raw = signed_16({hi, lo})`: no bit is masked and bit 12 is not extended (R47, R63). -/
def rawSample (lo hi : Byte) : Int := (rawWord lo hi).toInt

end Sys2Proof.Machine
end

