-- ==== Sys2Proof/Machine/Converter.lean ====
section
/-! DEFINITION. The meanings of port K, the sample conversion unit (spec 40_converter.md). None of them reads or
writes state (R11). -/

namespace Sys2Proof.Machine

/-- NOP.K: `respond(OK)` (R57). -/
def execNopK (s : State) : Host.Outcome State Fault Refusal := .next (answerOk .K s)

/-- CONV: one sample (R58). `int1`, `frac1`, `int2`, `frac2` are not valid. -/
def execConv (lo hi : Byte) (s : State) : Host.Outcome State Fault Refusal :=
  .next (respondK { kst := .ok
                    int0 := some (intField (rawSample lo hi))
                    frac0 := some (fracField (rawSample lo hi)) } s)

/-- CONV3: the three samples of a triple, index 0 the x axis, 1 y, 2 z (R44, R48, R68). -/
def execConv3 (b0 b1 b2 b3 b4 b5 : Byte) (s : State) : Host.Outcome State Fault Refusal :=
  .next (respondK { kst := .ok
                    int0 := some (intField (rawSample b0 b1))
                    frac0 := some (fracField (rawSample b0 b1))
                    int1 := some (intField (rawSample b2 b3))
                    frac1 := some (fracField (rawSample b2 b3))
                    int2 := some (intField (rawSample b4 b5))
                    frac2 := some (fracField (rawSample b4 b5)) } s)

/-- RSVD.K: `respond(ILLEGAL)` (R69). -/
def execRsvdK (s : State) : Host.Outcome State Fault Refusal := .next (answerIllegal .K s)

end Sys2Proof.Machine
end

