-- ==== Sys2Proof/Machine/Producer.lean ====
section
/-! DEFINITION. The meanings of port P, the producer's side of the byte queue (spec 41_queue_producer.md). -/

namespace Sys2Proof.Machine

/-- NOP.P: `respond(OK)` (R70). -/
def execNopP (s : State) : Host.Outcome State Fault Refusal := .next (answerOk .P s)

/-- PUSH: FAIL when the queue is full as the producer sees it, else store at `WR` and advance it (R72). -/
def execPush (pdata : Byte) (s : State) : Host.Outcome State Fault Refusal :=
  if fullP s then .next (answerFail .P s) else .next (answerOk .P (storeByte pdata s))

/-- QFULL.P: `pflag` is `full_p` (R73). -/
def execQfullP (s : State) : Host.Outcome State Fault Refusal :=
  .next (respondP { pst := .ok, pflag := some (fullP s) } s)

/-- QEMPTY.P: `pflag` is `empty_p` (R74). -/
def execQemptyP (s : State) : Host.Outcome State Fault Refusal :=
  .next (respondP { pst := .ok, pflag := some (emptyP s) } s)

/-- RSVD.P: `respond(ILLEGAL)` (R75). -/
def execRsvdP (s : State) : Host.Outcome State Fault Refusal := .next (answerIllegal .P s)

end Sys2Proof.Machine
end

