-- ==== Sys2Proof/Machine/Dispatch.lean ====
section
/-! DEFINITION. The meaning of every instruction: one arm per constructor of Instr, one meaning per arm. -/

namespace Sys2Proof.Machine

def exec (i : Instr) (s : State) : Host.Outcome State Fault Refusal :=
  match i with
  | .nopK => Sys2Proof.Machine.execNopK s
  | .conv lo hi => Sys2Proof.Machine.execConv lo hi s
  | .conv3 b0 b1 b2 b3 b4 b5 => Sys2Proof.Machine.execConv3 b0 b1 b2 b3 b4 b5 s
  | .rsvdK => Sys2Proof.Machine.execRsvdK s
  | .nopP => Sys2Proof.Machine.execNopP s
  | .push pdata => Sys2Proof.Machine.execPush pdata s
  | .qfullP => Sys2Proof.Machine.execQfullP s
  | .qemptyP => Sys2Proof.Machine.execQemptyP s
  | .rsvdP => Sys2Proof.Machine.execRsvdP s
  | .nopC => Sys2Proof.Machine.execNopC s
  | .pop => Sys2Proof.Machine.execPop s
  | .qfullC => Sys2Proof.Machine.execQfullC s
  | .qemptyC => Sys2Proof.Machine.execQemptyC s
  | .flush => Sys2Proof.Machine.execFlush s
  | .rsvdC5 => Sys2Proof.Machine.execRsvdC5 s
  | .rsvdC6 => Sys2Proof.Machine.execRsvdC6 s
  | .rsvdC7 => Sys2Proof.Machine.execRsvdC7 s

end Sys2Proof.Machine
end

