-- ==== Sys2Proof/Machine/Sync.lean ====
section
/-! DEFINITION. The steps that no port asks for: the two synchronisers (spec 43_cdc_synchronisers.md R89, R90) and the
reset input with the release of the domains (70_reset_and_hazards.md R112, R117). -/

namespace Sys2Proof.Machine

/-- SYNCW(n), enabled for `0 <= n <= dist(WRV, WR)`: `WRV <- u8(WRV + n)`, no response (R89). None while `rst_n` is
low (R112). -/
def stepSyncw (n : Nat) (s : State) : Host.Outcome State Fault Refusal :=
  if s.rstN = false then .refused .syncInReset
  else if n ≤ ringDist s.wrv s.wr then .next (setWrv (advanceBy s.wrv n) s)
  else .refused (.syncwNotEnabled n)

/-- SYNCR(n), enabled for `0 <= n <= dist(RDV, RD)`: `RDV <- u8(RDV + n)`, no response (R90). None while `rst_n` is
low (R112). -/
def stepSyncr (n : Nat) (s : State) : Host.Outcome State Fault Refusal :=
  if s.rstN = false then .refused .syncInReset
  else if n ≤ ringDist s.rdv s.rd then .next (setRdv (advanceBy s.rdv n) s)
  else .refused (.syncrNotEnabled n)

/-- `rst_n` goes low, at any time (R112): the whole block takes its reset values at once (R113, R116, U4). -/
def stepRstLow (s : State) : Host.Outcome State Fault Refusal := .next (assertReset s)

/-- `rst_n` goes high (R112). -/
def stepRstHigh (s : State) : Host.Outcome State Fault Refusal := .next (releaseReset s)

/-- One domain leaves reset, at some time after the release (R112, R117). -/
def stepLeaveReset (p : Port) (s : State) : Host.Outcome State Fault Refusal :=
  if s.rstN then .next (domainUp p s) else .refused (.releaseWhileLow p)

end Sys2Proof.Machine
end

