-- ==== Sys2Proof/Machine/Agents.lean ====
section
/-! DEFINITION. How the steps of the agents happen (spec 10_state.md R23): a request served on its port, a
synchroniser step, an event of the reset input; and how a request comes to stand first. -/

namespace Sys2Proof.Machine

/-- A port serves a request as one atomic step (R40), once all domains are out of reset (R112, R117, U4: refuse). -/
def serveRequest (r : Request) (s : State) : Host.Outcome State Fault Refusal :=
  if s.outOfReset then exec (decode r) s else .refused (.requestInReset r.port)

/-- One event happens (R23, R37: every step is atomic; log 19). -/
def happen (e : Event) (s : State) : Host.Outcome State Fault Refusal :=
  match e with
  | .request r => serveRequest r s
  | .syncw n => stepSyncw n s
  | .syncr n => stepSyncr n s
  | .rstLow => stepRstLow s
  | .rstHigh => stepRstHigh s
  | .leaveReset p => stepLeaveReset p s

/-- Several events happen, one after the other, up to the first that stops the machine. -/
def happenAll : List Event → State → Host.Outcome State Fault Refusal
  | [], s => .next s
  | e :: es, s =>
    match happen e s with
    | .next t => happenAll es t
    | .fault f => .fault f
    | .refused r => .refused r

/-- The first event of the schedule happens. With nothing scheduled nothing happens: every agent may stay idle, as a
synchroniser does in its step with `n` = 0 (R89, R90; log 3). -/
def takeEvent (s : State) : Host.Outcome State Fault Refusal :=
  match s.schedule with
  | [] => .next s
  | e :: rest => happen e (setSchedule rest s)

/-- A request stands first, and the block is out of reset so that it can be served (log 2). -/
def presentFirst (r : Request) (s : State) : State :=
  { s with rstN := true, upK := true, upP := true, upC := true, schedule := .request r :: s.schedule }

end Sys2Proof.Machine
end

