-- ==== Sys2Proof/Machine/Step.lean ====
section
/-! DEFINITION. One step of the machine. -/

namespace Sys2Proof.Machine

/-- One step of one agent (spec 10_state.md R23): the first event of the schedule happens. -/
def step (s : State) : Host.Outcome State Fault Refusal := takeEvent s

/-- `s` with the request of `nbits` bits `w` first in the schedule and the block out of reset, so that the next step
serves exactly it. The block fetches nothing (R12, R28): a request arrives from outside, and this stands for its
arrival (log 2). A number that is no request word cannot arrive and leaves `s` as it is (log 12). -/
def State.withFetchWord (s : State) (nbits w : Nat) : State :=
  match requestOfBits nbits w with
  | .ok r => presentFirst r s
  | .error _ => s

end Sys2Proof.Machine
end

