-- ==== Sys2Proof/Machine/Circuit.lean ====
section
/-! DEFINITION. Gray code (spec 43_cdc_synchronisers.md R93) and the reference circuit that carries the indices across
(R95, R96), clock edge by clock edge. The circuit is one that meets the contract of R89 to R92, not part of it (R98):
the block's own step is in Step.lean (log 13, log 15). -/

namespace Sys2Proof.Machine

/-- `gray(b) = b xor (b >> 1)` (R93). -/
def gray (b : Index) : BitVec 8 := b ^^^ (b >>> 1)

/-- The inverse: bit `i` is the exclusive-or of `g[7]` down to `g[i]` (R93). -/
def ungray (g : BitVec 8) : Index :=
  g ^^^ (g >>> 1) ^^^ (g >>> 2) ^^^ (g >>> 3) ^^^ (g >>> 4) ^^^ (g >>> 5) ^^^ (g >>> 6) ^^^ (g >>> 7)

/-- The block with the registers of the reference circuit (R95, R96). -/
structure Circuit where
  /-- The block itself. `WRV` and `RDV` in it are the binary decodings of `S2` and `T2`. -/
  core : State
  /-- `WRG`, gray(WR), clk_p domain. -/
  wrg : BitVec 8
  /-- `S1`, clk_c domain. -/
  s1 : BitVec 8
  /-- `S2`, clk_c domain. -/
  s2 : BitVec 8
  /-- `RDX`, the export counter, clk_c domain. -/
  rdx : Index
  /-- `RDG`, gray(RDX), clk_c domain. -/
  rdg : BitVec 8
  /-- `T1`, clk_p domain. -/
  t1 : BitVec 8
  /-- `T2`, clk_p domain. -/
  t2 : BitVec 8
deriving DecidableEq, Repr

/-- Every register of the circuit resets to 0 (R95, R96, R113). -/
def Circuit.reset : Circuit :=
  { core := State.reset, wrg := 0, s1 := 0, s2 := 0, rdx := 0, rdg := 0, t1 := 0, t2 := 0 }

/-- A clock edge, with the request the port serves on it, if any. -/
inductive Edge where
  /-- An edge of clk_k. -/
  | clkK (word : Option (BitVec Config.kreqW))
  /-- An edge of clk_p. -/
  | clkP (word : Option (BitVec Config.preqW))
  /-- An edge of clk_c. -/
  | clkC (word : Option (BitVec Config.creqW))
  /-- Edges of clk_p and clk_c that coincide: a bit that changes on one is caught old or new on the other, as the masks
  say (set: new), independently for each bit (R95). -/
  | clkPC (pword : Option (BitVec Config.preqW)) (cword : Option (BitVec Config.creqW)) (newW newR : BitVec 8)
deriving DecidableEq, Repr

/-- A port serves the request of an edge, if there is one. -/
def serveIfAny (r : Option Request) (s : State) : Host.Outcome State Fault Refusal :=
  match r with
  | none => .next s
  | some r => serveRequest r s

/-- What a flip-flop per bit catches of a register that changes from `old` to `new` on the same edge (R95). -/
def capture (newBits old new : BitVec 8) : BitVec 8 := (new &&& newBits) ||| (old &&& ~~~newBits)

/-- `WRG` after an edge of clk_p: loaded with gray(WR) when a successful PUSH advances `WR` on it (R95). -/
def nextWrg (c : Circuit) (t : State) : BitVec 8 := if t.wr = c.core.wr then c.wrg else gray t.wr

/-- `RDX` after an edge of clk_c: one step towards `RD` (R96). -/
def nextRdx (c : Circuit) : Index := if c.rdx = c.core.rd then c.rdx else advance c.rdx

/-- The clk_p side after its edge, when the block is `t` and `T1` catches `caught`: `T1 <- RDG`, `T2 <- T1`, and `RDV`
decodes the new `T2` (R96). -/
def clockedP (c : Circuit) (caught : BitVec 8) (t : State) : Circuit :=
  { c with core := setRdv (ungray c.t1) t, wrg := nextWrg c t, t1 := caught, t2 := c.t1 }

/-- The clk_c side after its edge, when the block is `t` and `S1` catches `caught`: `S1 <- WRG`, `S2 <- S1`, `RDX` and
`RDG` one step on, and `WRV` decodes the new `S2` (R95, R96). -/
def clockedC (c : Circuit) (caught : BitVec 8) (t : State) : Circuit :=
  { c with core := setWrv (ungray c.s1) t, s1 := caught, s2 := c.s1, rdx := nextRdx c, rdg := gray (nextRdx c) }

/-- Both sides after coinciding edges; every register takes its value from before them. -/
def clockedPC (c : Circuit) (newW newR : BitVec 8) (t : State) : Circuit :=
  { core := setRdv (ungray c.t1) (setWrv (ungray c.s1) t)
    wrg := nextWrg c t
    s1 := capture newW c.wrg (nextWrg c t)
    s2 := c.s1
    rdx := nextRdx c
    rdg := gray (nextRdx c)
    t1 := capture newR c.rdg (gray (nextRdx c))
    t2 := c.t1 }

/-- One clock edge of the reference circuit. A port's operation uses the registers as they stand before the edge. -/
def Circuit.step (c : Circuit) (e : Edge) : Host.Outcome Circuit Fault Refusal :=
  let go (o : Host.Outcome State Fault Refusal) (after : State → Circuit) : Host.Outcome Circuit Fault Refusal :=
    match o with
    | .next t => .next (after t)
    | .fault f => .fault f
    | .refused r => .refused r
  match e with
  | .clkK w => go (serveIfAny (w.map .k) c.core) fun t => { c with core := t }
  | .clkP w => go (serveIfAny (w.map .p) c.core) (clockedP c c.rdg)
  | .clkC w => go (serveIfAny (w.map .c) c.core) (clockedC c c.wrg)
  | .clkPC pw cw newW newR =>
    match serveIfAny (pw.map .p) c.core with
    | .next t => go (serveIfAny (cw.map .c) t) (clockedPC c newW newR)
    | .fault f => .fault f
    | .refused r => .refused r

end Sys2Proof.Machine
end

