-- ==== Sys2Proof/Machine/Trace.lean ====
section
/-! DEFINITION. The trace notation (spec 30_encoding.md R54) and the pseudo-operations (R55) as the events they
stand for. -/

namespace Sys2Proof.Machine

/-- A byte of a trace line. -/
def traceByte (b : Nat) : Byte := BitVec.ofNat 8 b

/-- `v[7:0]` of a 16-bit operand of a trace line. -/
def traceLow (v : Int) : Byte := (BitVec.ofInt 16 v).extractLsb' 0 8

/-- `v[15:8]` of a 16-bit operand of a trace line. -/
def traceHigh (v : Int) : Byte := (BitVec.ofInt 16 v).extractLsb' 8 8

/-- The event that presents the request word of an instruction. -/
def ask (i : Instr) : Event := .request (encode i)

/-- `S: SETTLE` in a state: SYNCW up to `WR`, then SYNCR up to `RD` (R55). -/
def settleEvents (s : State) : List Event := [.syncw (ringDist s.wrv s.wr), .syncr (ringDist s.rdv s.rd)]

/-- The events a trace line stands for in a state; only SETTLE looks at the state (R54, R55). -/
def traceEvents (l : TraceLine) (s : State) : List Event :=
  match l with
  | .kNop => [ask .nopK]
  | .kConv raw16 => [ask (.conv (traceLow raw16) (traceHigh raw16))]
  | .kConv3 b0 b1 b2 b3 b4 b5 =>
    [ask (.conv3 (traceByte b0) (traceByte b1) (traceByte b2) (traceByte b3) (traceByte b4) (traceByte b5))]
  | .kRsvd => [ask .rsvdK]
  | .pNop => [ask .nopP]
  | .pPush byte => [ask (.push (traceByte byte))]
  | .pQfull => [ask .qfullP]
  | .pQempty => [ask .qemptyP]
  | .pRsvd => [ask .rsvdP]
  | .cNop => [ask .nopC]
  | .cPop => [ask .pop]
  | .cQfull => [ask .qfullC]
  | .cQempty => [ask .qemptyC]
  | .cFlush => [ask .flush]
  | .cRsvd5 => [ask .rsvdC5]
  | .cRsvd6 => [ask .rsvdC6]
  | .cRsvd7 => [ask .rsvdC7]
  | .sSyncw n => [.syncw n]
  | .sSyncr n => [.syncr n]
  | .kConvb lo hi =>
    let raw16 : Int := hi * 256 + lo
    [ask (.conv (traceLow raw16) (traceHigh raw16))]
  | .kConvt x y z =>
    [ask (.conv3 (traceLow x) (traceHigh x) (traceLow y) (traceHigh y) (traceLow z) (traceHigh z))]
  | .sSettle => settleEvents s
  | .pPush16 v => [ask (.push (traceLow v)), ask (.push (traceHigh v))]

end Sys2Proof.Machine
end

