-- ==== Sys2Proof/Safety.lean ====
section
/-! DEFINITION. The terms the claims are stated in: the invariant of reachable states (spec 10_state.md R19), the
contents of the queue (R22), the queue as a list of bytes that the block is compared with (R22), what a run shows of
the bytes that went in and came out (20_memory.md R35), and the invariant of the reference circuit (R95, R96). -/

namespace Sys2Proof.Machine

/-! ### Operands -/

/-- `signed_16(hi * 256 + lo)` as R5 and R47 write it. -/
def signed16 (lo hi : Byte) : Int :=
  let u := hi.toNat * 256 + lo.toNat
  if u < 2 ^ 15 then (u : Int) else (u : Int) - 2 ^ 16

/-- `twos_64` of the truncating quotient of `raw * 4903325` by `10000000` (R44, R58, R59). -/
def quotientWord (lo hi : Byte) : BitVec 64 := BitVec.ofInt 64 ((signed16 lo hi * 4903325).tdiv 10000000)

/-- `twos_32` of the truncating remainder (R44, R58, R59). -/
def remainderWord (lo hi : Byte) : BitVec 32 := BitVec.ofInt 32 ((signed16 lo hi * 4903325).tmod 10000000)

/-- `(i, f)` makes up the product, and `f` is smaller than the divisor and zero or of the sign of `raw` (R6, R61). -/
def truncatingPair (raw i f : Int) : Prop :=
  raw * 4903325 = i * 10000000 + f ∧ -10000000 < f ∧ f < 10000000 ∧
    (f = 0 ∨ (0 < f ∧ 0 < raw) ∨ (f < 0 ∧ raw < 0))

/-! ### Reachable states -/

/-- The invariants of R19. Line 3 (the occupancy never exceeds 255) follows from line 1. Line 4 here says that every
slot of the contents has been written; which byte it holds is said against the list of bytes below. -/
structure RingInv (s : State) : Prop where
  /-- The slot memory is in its canonical form. -/
  memWf : Memory.wf s.mem
  /-- Line 1: going round from `RDV` one meets `RD`, then `WR`, without completing the circle. -/
  ring : ringDist s.rdv s.rd + ringDist s.rd s.wr ≤ 255
  /-- Line 2: `WRV` lies in the circular interval from `RD` to `WR`. -/
  view : ringDist s.rd s.wrv + ringDist s.wrv s.wr = ringDist s.rd s.wr
  /-- Line 4, first half: the slots from `RD` up to `WR` have been written. -/
  written : ∀ i < ringDist s.rd s.wr, (slotRead s.mem (advanceBy s.rd i)).isSome

/-- The queue is settled: both views show the true index (R99). -/
def settled (s : State) : Prop := s.wrv = s.wr ∧ s.rdv = s.rd

/-- The five architectural items of two states agree (R8: "no state change"; R10). -/
def sameArch (s t : State) : Prop :=
  t.mem = s.mem ∧ t.wr = s.wr ∧ t.rd = s.rd ∧ t.rdv = s.rdv ∧ t.wrv = s.wrv

/-- The status of the latest response on a port. -/
def statusOn (p : Port) (s : State) : Option Status :=
  match p with
  | .K => s.krsp.map KRsp.kst
  | .P => s.prsp.map PRsp.pst
  | .C => s.crsp.map CRsp.cst

/-! ### The contents -/

/-- The contents `Q` of the queue, oldest first (R22). -/
def contents (s : State) : List (Option Byte) :=
  (List.range (ringDist s.rd s.wr)).map fun i => slotRead s.mem (advanceBy s.rd i)

/-- The prefix `QV` of the contents that the consumer can reach (R22). -/
def visible (s : State) : List (Option Byte) := (contents s).take (ringDist s.rd s.wrv)

/-! ### The queue as a list of bytes (R22) -/

/-- The state that R22 offers in place of the slots and indices: `Q`, the length of `QV`, and how far `RDV` lags behind
`RD`. -/
structure Queue where
  bytes : List Byte
  seen : Nat
  lag : Nat
deriving DecidableEq, Repr

/-- An answer on one of the two queue ports. -/
inductive Answer where
  | onP (r : PRsp)
  | onC (r : CRsp)
deriving DecidableEq, Repr

/-- What each operation does to the list of bytes, and what it answers; port K has nothing to do with it. -/
def Queue.exec (i : Instr) (q : Queue) : Queue × Option Answer :=
  match i with
  | .nopK => (q, none)
  | .conv _ _ => (q, none)
  | .conv3 _ _ _ _ _ _ => (q, none)
  | .rsvdK => (q, none)
  | .nopP => (q, some (.onP { pst := .ok }))
  | .push b =>
    if q.bytes.length + q.lag = Config.qUsable then (q, some (.onP { pst := .fail }))
    else ({ q with bytes := q.bytes ++ [b] }, some (.onP { pst := .ok }))
  | .qfullP => (q, some (.onP { pst := .ok, pflag := some (q.bytes.length + q.lag == Config.qUsable) }))
  | .qemptyP => (q, some (.onP { pst := .ok, pflag := some (q.bytes.length + q.lag == 0) }))
  | .rsvdP => (q, some (.onP { pst := .illegal }))
  | .nopC => (q, some (.onC { cst := .ok }))
  | .pop =>
    match q.bytes, q.seen with
    | b :: rest, n + 1 => (⟨rest, n, q.lag + 1⟩, some (.onC { cst := .ok, cdata := some b }))
    | _, _ => (q, some (.onC { cst := .fail }))
  | .qfullC => (q, some (.onC { cst := .ok, cflag := some (q.seen == Config.qUsable) }))
  | .qemptyC => (q, some (.onC { cst := .ok, cflag := some (q.seen == 0) }))
  | .flush => (⟨q.bytes.drop q.seen, 0, q.lag + q.seen⟩, some (.onC { cst := .ok }))
  | .rsvdC5 => (q, some (.onC { cst := .illegal }))
  | .rsvdC6 => (q, some (.onC { cst := .illegal }))
  | .rsvdC7 => (q, some (.onC { cst := .illegal }))

/-- What each event does to the list of bytes: SYNCW lengthens the visible prefix, SYNCR lowers the lag, a reset
empties the queue. -/
def Queue.happen (e : Event) (q : Queue) : Queue :=
  match e with
  | .request r => (Queue.exec (decode r) q).1
  | .syncw n => { q with seen := q.seen + n }
  | .syncr n => { q with lag := q.lag - n }
  | .rstLow => ⟨[], 0, 0⟩
  | .rstHigh => q
  | .leaveReset _ => q

/-- The latest answer on the queue port of an operation. -/
def answerOn (p : Port) (s : State) : Option Answer :=
  match p with
  | .K => none
  | .P => s.prsp.map .onP
  | .C => s.crsp.map .onC

/-- The list of bytes that a state stands for. -/
structure Represents (s : State) (q : Queue) : Prop where
  bytes : contents s = q.bytes.map some
  seen : q.seen = ringDist s.rd s.wrv
  lag : q.lag = ringDist s.rdv s.rd

/-! ### What a run shows of the bytes (R35) -/

/-- What happens to bytes at the ports. -/
inductive ByteEvent where
  | pushed (b : Byte)
  | popped (b : Byte)
  | flushed
deriving DecidableEq, Repr

/-- What one event showed, seen in the state after it. -/
def shown (e : Event) (t : State) : List ByteEvent :=
  match e with
  | .request r =>
    match decode r with
    | .push b => if statusOn .P t = some .ok then [.pushed b] else []
    | .pop => ((t.crsp.bind CRsp.cdata).map ByteEvent.popped).toList
    | .flush => [.flushed]
    | _ => []
  | _ => []

/-- What `k` steps from `s` show, oldest first. -/
def history : Nat → State → List ByteEvent
  | 0, _ => []
  | k + 1, s =>
    match s.schedule, step s with
    | e :: _, .next t => shown e t ++ history k t
    | _, _ => []

/-- The bytes of the successful PUSHes (the `p` of R35). -/
def pushedBytes (h : List ByteEvent) : List Byte :=
  h.filterMap fun e => match e with
    | .pushed b => some b
    | _ => none

/-- The bytes returned by the successful POPs (the `q` of R35). -/
def poppedBytes (h : List ByteEvent) : List Byte :=
  h.filterMap fun e => match e with
    | .popped b => some b
    | _ => none

/-- The number of FLUSHes. -/
def flushes (h : List ByteEvent) : Nat := h.count .flushed

/-- The bytes that left the queue, in order: each popped byte, and for each FLUSH the run of bytes it dropped. -/
def leftQueue : List ByteEvent → List (List Byte) → List Byte
  | [], _ => []
  | .pushed _ :: h, dropped => leftQueue h dropped
  | .popped b :: h, dropped => b :: leftQueue h dropped
  | .flushed :: h, [] => leftQueue h []
  | .flushed :: h, d :: dropped => d ++ leftQueue h dropped

/-- The operation an event asks for, if it is a request. -/
def Event.asks (e : Event) : Option Instr :=
  match e with
  | .request r => some (decode r)
  | _ => none

/-- An event that does not reset the block and asks nothing on port `p`. -/
def awayFrom (p : Port) (e : Event) : Prop := e ≠ .rstLow ∧ ∀ i, Event.asks e = some i → i.port ≠ p

/-- Nothing scheduled drives `rst_n` low. -/
def noReset (s : State) : Prop := Event.rstLow ∉ s.schedule

/-! ### The reference circuit (R95, R96) -/

/-- What holds of the circuit between clock edges: the gray registers hold the gray codes of `WR` and of `RDX`, the
views decode the last stages, and each stage lies between the one after it and the index it comes from. -/
structure CircuitInv (c : Circuit) : Prop where
  core : RingInv c.core
  running : c.core.outOfReset = true
  wrg : c.wrg = gray c.core.wr
  rdg : c.rdg = gray c.rdx
  wrv : c.core.wrv = ungray c.s2
  rdv : c.core.rdv = ungray c.t2
  stagesW : ringDist (ungray c.s2) (ungray c.s1) + ringDist (ungray c.s1) c.core.wr = ringDist (ungray c.s2) c.core.wr
  stagesR : ringDist (ungray c.t2) (ungray c.t1) + ringDist (ungray c.t1) c.rdx + ringDist c.rdx c.core.rd =
    ringDist (ungray c.t2) c.core.rd

/-- The request of a clock edge as an event, if there is one. -/
def askedOn (r : Option Request) : List Event := (r.map Event.request).toList

/-- The port requests that a clock edge serves, as events of the block. -/
def Edge.requests (e : Edge) : List Event :=
  match e with
  | .clkK w => askedOn (w.map .k)
  | .clkP w => askedOn (w.map .p)
  | .clkC w => askedOn (w.map .c)
  | .clkPC pw cw _ _ => askedOn (pw.map .p) ++ askedOn (cw.map .c)

end Sys2Proof.Machine
end

