-- ==== Sys2Proof/Certificates/Slice0/Obligations.lean ====
section
/-! DEFINITION. The statements for the provers, in the order of the spec's files: reset, memory and ordering,
encodings, converter, producer, consumer, synchronisers, failures, and the machine as a whole. -/

open Sys2Proof Sys2Proof.Machine

/-! ### State and reset -/

/-- R24: after reset the four indices are 0, no slot has a value, the queue is empty and settled, and the four status
answers are those of an empty queue. -/
def Obligations.ResetLeavesAnEmptySettledQueue : Prop :=
  State.reset.wr = 0 ∧ State.reset.rd = 0 ∧ State.reset.rdv = 0 ∧ State.reset.wrv = 0 ∧
    (∀ a, slotRead State.reset.mem a = none) ∧ settled State.reset ∧ contents State.reset = [] ∧
    emptyP State.reset = true ∧ emptyC State.reset = true ∧ fullP State.reset = false ∧ fullC State.reset = false

/-- R113, R114, R116: driving `rst_n` low in any state gives the reset values, keeps no byte of the memory and
discards the responses; at once and for all domains together, as the model has it (log 7, log 9, log 10). -/
def Obligations.DrivingResetLowGivesResetValues : Prop :=
  ∀ s : State, ∃ t, happen .rstLow s = .next t ∧ sameArch State.reset t ∧
    t.krsp = none ∧ t.prsp = none ∧ t.crsp = none ∧ t.rstN = false

/-- R112, R117: a request while `rst_n` is low, or while it is high and a domain is still in reset, is not served, and
while `rst_n` is low no synchroniser steps; the model says so by refusing each by name (U4; the model's choice,
log 9). -/
def Obligations.NothingIsServedWhileResetIsLow : Prop :=
  ∀ s : State,
    (s.outOfReset = false → ∀ r, happen (.request r) s = .refused (.requestInReset r.port)) ∧
    (s.rstN = false → s.outOfReset = false ∧
      (∀ n, happen (.syncw n) s = .refused .syncInReset) ∧ (∀ n, happen (.syncr n) s = .refused .syncInReset) ∧
      ∀ p, happen (.leaveReset p) s = .refused (.releaseWhileLow p))

/-- R117 as the model has it (log 9): after `rst_n` has been low and released, with one of the three domains still in
reset every request is refused by name; once the three have left reset, in whichever order, every request is served as
its instruction, in the reset state. -/
def Obligations.BringUpInAnyOrderReachesService : Prop :=
  ∀ (s : State) (a b c : Port), a ≠ b → b ≠ c → a ≠ c →
    ∃ t u, happenAll [.rstLow, .rstHigh, .leaveReset a, .leaveReset b] s = .next t ∧ t.outOfReset = false ∧
      (∀ r, happen (.request r) t = .refused (.requestInReset r.port)) ∧
      happen (.leaveReset c) t = .next u ∧ u.outOfReset = true ∧ sameArch State.reset u ∧ RingInv u ∧
      ∀ r, happen (.request r) u = exec (decode r) u

/-- R18: each piece of state has exactly one writer. Outside a reset, `MEM` and `WR` change only in a PUSH, `RD` only
in a POP or a FLUSH, `RDV` only in a SYNCR step and `WRV` only in a SYNCW step; and of `MEM` only the slot at `WR`
may change. -/
def Obligations.EachPieceOfStateHasOneWriter : Prop :=
  ∀ (s t : State) (e : Event), e ≠ .rstLow → happen e s = .next t →
    ((t.mem ≠ s.mem ∨ t.wr ≠ s.wr) → ∃ b, Event.asks e = some (.push b)) ∧
    (t.rd ≠ s.rd → Event.asks e = some .pop ∨ Event.asks e = some .flush) ∧
    (t.rdv ≠ s.rdv → ∃ n, e = .syncr n) ∧ (t.wrv ≠ s.wrv → ∃ n, e = .syncw n) ∧
    ∀ a, a ≠ s.wr → slotRead t.mem a = slotRead s.mem a

/-- R16, R17: in no step does a view pass the index it shows, nor go back: its new value lies in the circular
interval from its previous value to the index after the step. -/
def Obligations.ViewsNeverPassTheirIndexNorGoBack : Prop :=
  ∀ (s t : State) (e : Event), e ≠ .rstLow → happen e s = .next t →
    ringDist s.rdv t.rdv ≤ ringDist s.rdv t.rd ∧ ringDist s.wrv t.wrv ≤ ringDist s.wrv t.wr

/-- R19: the invariants hold after reset, also with any schedule. -/
def Obligations.InvariantHoldsAfterReset : Prop :=
  ∀ es : List Event, RingInv { State.reset with schedule := es }

/-- R19: every step of the machine, by whichever agent, keeps the invariants: the ring order of `RDV`, `RD`, `WRV`,
`WR`, the written slots, and the canonical form of the memory. -/
def Obligations.EveryStepKeepsTheInvariant : Prop :=
  ∀ s t : State, RingInv s → step s = .next t → RingInv t

/-- R19, last sentence: POP only ever reads a slot that a PUSH has written. In a state with the invariant no step
faults. -/
def Obligations.NoStepFaultsUnderTheInvariant : Prop :=
  ∀ (s : State) (f : Fault), RingInv s → step s ≠ .fault f

/-- R21: which answers are certain, that the other two may be stale, and that all four are exact when the queue is
settled. -/
def Obligations.CertainAnswersAreTrue : Prop :=
  (∀ s : State, RingInv s →
    (fullP s = false → fullTrue s = false) ∧ (emptyC s = false → emptyTrue s = false) ∧
    (emptyP s = true → emptyTrue s = true) ∧ (fullC s = true → fullTrue s = true) ∧
    (settled s → fullP s = fullTrue s ∧ fullC s = fullTrue s ∧ emptyP s = emptyTrue s ∧ emptyC s = emptyTrue s)) ∧
  (∃ s, RingInv s ∧ fullP s = true ∧ fullTrue s = false) ∧
  (∃ s, RingInv s ∧ emptyC s = true ∧ emptyTrue s = false)

/-- R22: the block is the queue of bytes `(Q, length of QV, lag of RDV)`: every event that happens takes a state that
stands for such a queue to one that stands for the queue after the event, and a request at a queue port is answered
as that queue answers. -/
def Obligations.BlockRefinesTheListOfBytes : Prop :=
  ∀ (s t : State) (q : Queue) (e : Event), RingInv s → Represents s q → happen e s = .next t →
    Represents t (Queue.happen e q) ∧
    ∀ i, Event.asks e = some i → answerOn i.port t = (Queue.exec i q).2

/-- R22: every state with the invariant stands for exactly one such queue. -/
def Obligations.EveryInvariantStateStandsForOneQueue : Prop :=
  ∀ s : State, RingInv s → ∃ q, Represents s q ∧ ∀ q', Represents s q' → q' = q

/-! ### Ordering -/

/-- R35: the bytes popped are the bytes pushed, in order, less one contiguous run for each FLUSH. From a state whose
queue is empty (as after reset), in every run of any length and any schedule without a reset: the bytes that left the
queue, popped or dropped, and then those still in it are exactly the bytes pushed; and without a FLUSH the bytes
popped are the first of the bytes pushed. -/
def Obligations.BytesComeOutInTheOrderPushed : Prop :=
  ∀ (s t : State) (k : Nat), RingInv s → contents s = [] → noReset s → Host.Core.run Sys2Proof.core k s = .next t →
    (∃ dropped : List (List Byte), dropped.length = flushes (history k s) ∧
      (pushedBytes (history k s)).map some = (leftQueue (history k s) dropped).map some ++ contents t) ∧
    (flushes (history k s) = 0 → poppedBytes (history k s) <+: pushedBytes (history k s))

/-- R37 (4): a step of P and a step of C that are both enabled give the same final state in either order. -/
def Obligations.ProducerAndConsumerStepsCommute : Prop :=
  ∀ (s : State) (p : BitVec 11) (c : BitVec 3), RingInv s → s.outOfReset = true →
    ∃ t, happenAll [.request (.p p), .request (.c c)] s = .next t ∧
      happenAll [.request (.c c), .request (.p p)] s = .next t

/-- R23: K touches no state, so its steps commute with every step of the other agents. -/
def Obligations.ConverterStepsCommuteWithTheQueue : Prop :=
  ∀ (s t : State) (k : BitVec 50) (e : Event), s.outOfReset = true → awayFrom .K e →
    (happenAll [.request (.k k), e] s = .next t ↔ happenAll [e, .request (.k k)] s = .next t)

/-- R37 (3): what a request leaves alone. Port K: everything but `KRSP`. Port P: everything but `PRSP`, `WR` and the
slot at `WR`, of which only PUSH changes the last two. Port C: everything but `CRSP` and `RD`, of which only POP and
FLUSH change the second. Every slot not stored to reads as before. -/
def Obligations.RequestsLeaveTheRestAlone : Prop :=
  ∀ (i : Instr) (s t : State), exec i s = .next t →
    t.rdv = s.rdv ∧ t.wrv = s.wrv ∧ t.rstN = s.rstN ∧ t.upK = s.upK ∧ t.upP = s.upP ∧ t.upC = s.upC ∧
    t.schedule = s.schedule ∧
    (i.port ≠ .K → t.krsp = s.krsp) ∧ (i.port ≠ .P → t.prsp = s.prsp) ∧ (i.port ≠ .C → t.crsp = s.crsp) ∧
    (i ≠ .pop → i ≠ .flush → t.rd = s.rd) ∧
    ((∀ b, i ≠ .push b) → t.wr = s.wr ∧ ∀ a, slotRead t.mem a = slotRead s.mem a) ∧
    (∀ a, a ≠ s.wr → slotRead t.mem a = slotRead s.mem a)

/-! ### Encodings -/

/-- R41 to R43, R50: words written out from the tables decode to the operations they stand for. -/
def Obligations.WordsDecodeAsTheTablesSay : Prop :=
  decode (.k 0x10000000000CC#50) = .conv 0xCC#8 0x00#8 ∧
  decode (.k 0x2F000FFFF00CC#50) = .conv3 0xCC#8 0x00#8 0xFF#8 0xFF#8 0x00#8 0xF0#8 ∧
  decode (.k 0x3000000000000#50) = .rsvdK ∧ decode (.p 0x141#11) = .push 0x41#8 ∧
  decode (.p 0x2AB#11) = .qfullP ∧ decode (.p 0x7FF#11) = .rsvdP ∧
  decode (.c 0b001#3) = .pop ∧ decode (.c 0b100#3) = .flush

/-- Decoding the request word of any instruction gives the instruction back, with every operand. -/
def Obligations.DecodeOfEncodeIsTheInstruction : Prop :=
  ∀ i : Instr, i.wf = true → decode (encode i) = i

/-- R41 to R43, R53: encoding what was decoded gives back every bit of the request word that is not ignored, and zeros
for the ignored bits (the model's choice, log 18); so no other bit is dropped. -/
def Obligations.OnlyIgnoredBitsAreDropped : Prop :=
  (∀ w : BitVec 50, encode (decode (.k w)) = .k (w &&&
    (if w.extractLsb' 48 2 = 1#2 then 0x300000000FFFF#50
      else if w.extractLsb' 48 2 = 2#2 then 0x3FFFFFFFFFFFF#50 else 0x3000000000000#50))) ∧
  (∀ w : BitVec 11, encode (decode (.p w)) = .p (w &&&
    (if w.extractLsb' 8 3 = 1#3 then 0x7FF#11 else if w.getLsbD 10 then 0x400#11 else 0x700#11))) ∧
  (∀ w : BitVec 3, encode (decode (.c w)) = .c w)

/-- R50: within one format the patterns are disjoint and cover every word, and the row that covers a request is the
row of the operation it decodes to. -/
def Obligations.ExactlyOneRowCoversEachRequest : Prop :=
  ∀ r : Request, ∃ row ∈ opcodeMap, row.covers r = true ∧ row.mnemonic = (decode r).mnemonic ∧
    ∀ row' ∈ opcodeMap, row'.covers r = true → row' = row

/-- R44, R46: a response word carries each valid field at the bits the tables give, whatever stands in the others. -/
def Obligations.ResponseFieldsStandWhereTheTablesSay : Prop :=
  (∀ (r : KRsp) (x : BitVec 290), (encodeKRsp r x).extractLsb' 288 2 = statusCode r.kst ∧
    (∀ v, r.int2 = some v → (encodeKRsp r x).extractLsb' 224 64 = v) ∧
    (∀ v, r.frac2 = some v → (encodeKRsp r x).extractLsb' 192 32 = v) ∧
    (∀ v, r.int1 = some v → (encodeKRsp r x).extractLsb' 128 64 = v) ∧
    (∀ v, r.frac1 = some v → (encodeKRsp r x).extractLsb' 96 32 = v) ∧
    (∀ v, r.int0 = some v → (encodeKRsp r x).extractLsb' 32 64 = v) ∧
    (∀ v, r.frac0 = some v → (encodeKRsp r x).extractLsb' 0 32 = v)) ∧
  (∀ (r : PRsp) (x : BitVec 3), (encodePRsp r x).extractLsb' 1 2 = statusCode r.pst ∧
    (∀ v, r.pflag = some v → (encodePRsp r x).getLsbD 0 = v)) ∧
  (∀ (r : CRsp) (x : BitVec 11), (encodeCRsp r x).extractLsb' 9 2 = statusCode r.cst ∧
    (∀ v, r.cflag = some v → (encodeCRsp r x).getLsbD 8 = v) ∧
    (∀ v, r.cdata = some v → (encodeCRsp r x).extractLsb' 0 8 = v))

/-- Decoding a response word gives back the response it was made from, for every response to the request and every
content of the fields that are not valid. -/
def Obligations.DecodeOfEncodeIsTheResponse : Prop :=
  (∀ (i : Instr) (r : KRsp) (x : BitVec 290), r.wf i = true → decodeKRsp i (encodeKRsp r x) = .ok r) ∧
  (∀ (i : Instr) (r : PRsp) (x : BitVec 3), r.wf i = true → decodePRsp i (encodePRsp r x) = .ok r) ∧
  (∀ (i : Instr) (r : CRsp) (x : BitVec 11), r.wf i = true → decodeCRsp i (encodeCRsp r x) = .ok r)

/-- R45: the three codes, and that 0b11 is never produced and never read as a status (an error, the
model's choice, log 20). -/
def Obligations.StatusCodesAreThree : Prop :=
  statusCode .ok = 0b00#2 ∧ statusCode .fail = 0b01#2 ∧ statusCode .illegal = 0b10#2 ∧
  (∀ st, statusCode st ≠ 0b11#2) ∧ (∀ st, statusOfCode (statusCode st) = .ok st) ∧
  statusOfCode 0b11#2 = .error .noSuchStatus

/-- R44, R46, R126: after every operation the response on its port has a value in exactly the fields the tables call
valid; every other field is absent. -/
def Obligations.OnlyValidResponseFieldsHaveAValue : Prop :=
  ∀ (i : Instr) (s t : State), exec i s = .next t →
    match i.port with
    | .K => ∃ r, t.krsp = some r ∧ r.wf i = true
    | .P => ∃ r, t.prsp = some r ∧ r.wf i = true
    | .C => ∃ r, t.crsp = some r ∧ r.wf i = true

/-- R54, R55: a 16-bit operand in hex and in signed decimal is the same request; CONVB assembles its two bytes low byte
first; CONVT and PUSH16 split theirs the same way. -/
def Obligations.TraceOperandsAssembleLowByteFirst : Prop :=
  (∀ (v : Int) (s : State), v < 0 → (TraceLine.kConv v).wf = true →
    traceEvents (.kConv v) s = traceEvents (.kConv (v + 65536)) s) ∧
  (∀ (lo hi : Nat) (s : State), (TraceLine.kConvb lo hi).wf = true →
    traceEvents (.kConvb lo hi) s = [ask (.conv (traceByte lo) (traceByte hi))] ∧
    traceEvents (.pPush16 (hi * 256 + lo)) s = [ask (.push (traceByte lo)), ask (.push (traceByte hi))]) ∧
  (∀ (x0 x1 y0 y1 z0 z1 : Nat) (s : State), (TraceLine.kConv3 x0 x1 y0 y1 z0 z1).wf = true →
    traceEvents (.kConvt (x1 * 256 + x0) (y1 * 256 + y0) (z1 * 256 + z0)) s =
      traceEvents (.kConv3 x0 x1 y0 y1 z0 z1) s)

/-! ### The converter -/

/-- R57, R70, R78: code 0 of each port answers OK with no other field and changes nothing else. -/
def Obligations.NoOperationsAnswerOk : Prop :=
  (∀ w : BitVec 50, w.extractLsb' 48 2 = 0#2 → decode (.k w) = .nopK) ∧
  (∀ w : BitVec 11, w.extractLsb' 8 3 = 0#3 → decode (.p w) = .nopP) ∧ decode (.c 0#3) = .nopC ∧
  ∀ s : State,
    exec .nopK s = .next { s with krsp := some { kst := .ok } } ∧
    exec .nopP s = .next { s with prsp := some { pst := .ok } } ∧
    exec .nopC s = .next { s with crsp := some { cst := .ok } }

/-- R47, R58, R59: CONV answers the truncating quotient and remainder of `raw * 4903325` by `10000000` for
`raw = signed_16(hi * 256 + lo)`, in the two fields of sample 0, and changes nothing else. That is so for every word
with `kop` = 1, whatever its other 32 bits. -/
def Obligations.ConvAnswersQuotientAndRemainder : Prop :=
  (∀ w : BitVec 50, w.extractLsb' 48 2 = 1#2 → decode (.k w) = .conv (w.extractLsb' 0 8) (w.extractLsb' 8 8)) ∧
  ∀ (lo hi : Byte) (s : State), exec (.conv lo hi) s = .next { s with
    krsp := some { kst := .ok, int0 := some (quotientWord lo hi), frac0 := some (remainderWord lo hi) } }

/-- R48, R68: CONV3 answers the quotient and remainder of each of its three byte pairs, x, y, z, each low byte first,
and gives exactly what three CONVs give. -/
def Obligations.Conv3AnswersThreeConversions : Prop :=
  (∀ w : BitVec 50, w.extractLsb' 48 2 = 2#2 → decode (.k w) = .conv3 (w.extractLsb' 0 8) (w.extractLsb' 8 8)
    (w.extractLsb' 16 8) (w.extractLsb' 24 8) (w.extractLsb' 32 8) (w.extractLsb' 40 8)) ∧
  ∀ (b0 b1 b2 b3 b4 b5 : Byte) (s : State),
    exec (.conv3 b0 b1 b2 b3 b4 b5) s = .next { s with
      krsp := some { kst := .ok, int0 := some (quotientWord b0 b1), frac0 := some (remainderWord b0 b1),
                     int1 := some (quotientWord b2 b3), frac1 := some (remainderWord b2 b3),
                     int2 := some (quotientWord b4 b5), frac2 := some (remainderWord b4 b5) } } ∧
    ∀ b c, exec (.conv b c) s = .next { s with
      krsp := some { kst := .ok, int0 := some (quotientWord b c), frac0 := some (remainderWord b c) } }

/-- R61: the division truncates. CONV answers the pair of numbers that makes up the product, with a remainder smaller
than the divisor that is zero or has the sign of `raw`, and a quotient that is zero or has the sign of `raw`; no other
pair does that, and for `raw` = -1 it is (0, -4903325). -/
def Obligations.ConvDivisionTruncates : Prop :=
  (∀ (lo hi : Byte) (s : State), ∃ i f : Int, truncatingPair (signed16 lo hi) i f ∧
    (i = 0 ∨ (0 < i ∧ 0 < signed16 lo hi) ∨ (i < 0 ∧ signed16 lo hi < 0)) ∧
    (∀ i' f', truncatingPair (signed16 lo hi) i' f' → i' = i ∧ f' = f) ∧
    exec (.conv lo hi) s = .next { s with
      krsp := some { kst := .ok, int0 := some (BitVec.ofInt 64 i), frac0 := some (BitVec.ofInt 32 f) } }) ∧
  ∀ s : State, exec (.conv 0xFF#8 0xFF#8) s = .next { s with
    krsp := some { kst := .ok, int0 := some 0, frac0 := some (BitVec.ofInt 32 (-4903325)) } }

/-- R64: the ranges and identities of the answer of CONV, (1) to (7) in order; the negation (5) and the order (7) are
about two operands, of which the second too has its numbers fixed by (1) and (2). -/
def Obligations.ConvRangesAndIdentities : Prop :=
  ∀ (lo hi lo' hi' : Byte) (s : State), ∃ i f i' f' : Int,
    exec (.conv lo hi) s = .next { s with
      krsp := some { kst := .ok, int0 := some (BitVec.ofInt 64 i), frac0 := some (BitVec.ofInt 32 f) } } ∧
    exec (.conv lo' hi') s = .next { s with
      krsp := some { kst := .ok, int0 := some (BitVec.ofInt 64 i'), frac0 := some (BitVec.ofInt 32 f') } } ∧
    signed16 lo hi * 4903325 = i * 10000000 + f ∧
    (-9999999 ≤ f ∧ f ≤ 9999999) ∧ (-16067 ≤ i ∧ i ≤ 16066) ∧
    (-4096 ≤ signed16 lo hi → signed16 lo hi ≤ 4095 → -2008 ≤ i ∧ i ≤ 2007) ∧
    (0 ≤ i * f ∧ 0 ≤ signed16 lo hi * i ∧ 0 ≤ signed16 lo hi * f) ∧
    (signed16 lo' hi' * 4903325 = i' * 10000000 + f' ∧ -9999999 ≤ f' ∧ f' ≤ 9999999) ∧
    (signed16 lo' hi' = - signed16 lo hi → i' = -i ∧ f' = -f) ∧
    (f = 0 ↔ signed16 lo hi = 0) ∧
    (signed16 lo hi < signed16 lo' hi' → i * 10000000 + f < i' * 10000000 + f')

/-- R60: the 64-bit signed product is the exact product, lies between the two extremes, which are reached, and needs
39 bits; and the whole 64-bit path (multiply, divide, remainder) gives the fields of the exact conversion. -/
def Obligations.SixtyFourBitPathIsExact : Prop :=
  (∀ raw : BitVec 16,
    (raw.signExtend 64 * 4903325#64).toInt = raw.toInt * 4903325 ∧
    -160672153600 ≤ raw.toInt * 4903325 ∧ raw.toInt * 4903325 ≤ 160667250275 ∧
    -(2 ^ 38) ≤ raw.toInt * 4903325 ∧ raw.toInt * 4903325 < 2 ^ 38 ∧
    physDatapath raw = (intField raw.toInt, fracField raw.toInt)) ∧
  (0x8000#16).toInt * 4903325 = -160672153600 ∧ (0x7FFF#16).toInt * 4903325 = 160667250275 ∧
  (0x8000#16).toInt * 4903325 < -(2 ^ 37)

/-- R65: the answer of CONV depends on `kdata[15:0]` alone: two CONV words that agree there give one and the same
response, in any two states. -/
def Obligations.ConvDependsOnItsSampleAlone : Prop :=
  ∀ (w w' : BitVec 50) (s s' : State), w.extractLsb' 48 2 = 1#2 → w'.extractLsb' 48 2 = 1#2 →
    w.extractLsb' 0 16 = w'.extractLsb' 0 16 →
    ∃ r, exec (decode (.k w)) s = .next { s with krsp := some r } ∧
      exec (decode (.k w')) s' = .next { s' with krsp := some r }

/-! ### The producer's side -/

/-- R72: PUSH answers FAIL and changes nothing when `u8(WR + 1) = RDV`; otherwise it stores the byte in the slot at
`WR`, advances `WR` and answers OK; every other slot reads as before. -/
def Obligations.PushStoresAtWrAndAdvancesIt : Prop :=
  (∀ w : BitVec 11, w.extractLsb' 8 3 = 1#3 → decode (.p w) = .push (w.extractLsb' 0 8)) ∧
  ∀ (b : Byte) (s : State),
    (s.wr + 1 = s.rdv → exec (.push b) s = .next { s with prsp := some { pst := .fail } }) ∧
    (s.wr + 1 ≠ s.rdv → ∃ m, exec (.push b) s = .next { s with
        mem := m, wr := s.wr + 1, prsp := some { pst := .ok } } ∧
      ∀ a, slotRead m a = if a = s.wr then some b else slotRead s.mem a)

/-- R73: QFULL.P answers whether `u8(WR + 1) = RDV`. False is certain, and a PUSH that follows on the port succeeds,
whatever the other agents did in between. -/
def Obligations.QfullPAnswersAndFalseAllowsPush : Prop :=
  (∀ w : BitVec 11, w.extractLsb' 8 3 = 2#3 → decode (.p w) = .qfullP) ∧
  (∀ s : State, exec .qfullP s = .next { s with
    prsp := some { pst := .ok, pflag := some (decide (s.wr + 1 = s.rdv)) } }) ∧
  ∀ (s t : State) (es : List Event) (b : Byte), RingInv s → s.wr + 1 ≠ s.rdv → (∀ e ∈ es, awayFrom .P e) →
    happenAll es s = .next t →
    fullTrue s = false ∧ ∃ u, exec (.push b) t = .next u ∧ statusOn .P u = some .ok

/-- R74: QEMPTY.P answers whether `RDV = WR`. True is certain, and stays true until the producer's own next PUSH,
whatever else happens; false may be stale. -/
def Obligations.QemptyPAnswersAndTrueLasts : Prop :=
  (∀ w : BitVec 11, w.extractLsb' 8 3 = 3#3 → decode (.p w) = .qemptyP) ∧
  (∀ s : State, exec .qemptyP s = .next { s with
    prsp := some { pst := .ok, pflag := some (decide (s.rdv = s.wr)) } }) ∧
  (∀ (s t : State) (es : List Event), RingInv s → s.rdv = s.wr →
    (∀ e ∈ es, ∀ b, Event.asks e ≠ some (.push b)) → happenAll es s = .next t →
    emptyTrue s = true ∧ t.rdv = t.wr) ∧
  ∃ s, RingInv s ∧ emptyP s = false ∧ emptyTrue s = true

/-- R76: with no step of C in between, on an empty queue whose `RDV` lags by `a` positions exactly `255 - a`
consecutive PUSHes return OK (255 of them when it is settled), after which QFULL.P answers true and a further PUSH
fails. -/
def Obligations.PushesFillTheQueueExactly : Prop :=
  ∀ (s : State) (bs : List Byte) (b : Byte), RingInv s → s.outOfReset = true → s.rd = s.wr →
    bs.length + ringDist s.rdv s.rd = 255 →
    ∃ t, happenAll (bs.map fun x => .request (encode (.push x))) s = .next t ∧
      contents t = bs.map some ∧ t.wr = s.wr + BitVec.ofNat 8 bs.length ∧
      exec .qfullP t = .next { t with prsp := some { pst := .ok, pflag := some true } } ∧
      exec (.push b) t = .next { t with prsp := some { pst := .fail } }

/-- R77: a PUSH does not change `RD`, `WRV` or the consumer's reachable prefix, and every operation of the consumer is
answered after it as before it. -/
def Obligations.PushDoesNotDisturbTheConsumer : Prop :=
  ∀ (s t u : State) (b : Byte) (i : Instr), RingInv s → exec (.push b) s = .next t →
    t.rd = s.rd ∧ t.wrv = s.wrv ∧ visible t = visible s ∧
    (i.port = .C → exec i s = .next u → ∃ v, exec i t = .next v ∧ v.crsp = u.crsp ∧ v.rd = u.rd)

/-! ### The consumer's side -/

/-- R79: POP answers FAIL with no byte and changes nothing when `RD = WRV`; otherwise it answers the byte in the slot
at `RD` and advances `RD`; memory is not written. -/
def Obligations.PopLoadsAtRdAndAdvancesIt : Prop :=
  decode (.c 1#3) = .pop ∧
  ∀ s : State,
    (s.rd = s.wrv → exec .pop s = .next { s with crsp := some { cst := .fail } }) ∧
    (∀ b, s.rd ≠ s.wrv → slotRead s.mem s.rd = some b →
      exec .pop s = .next { s with rd := s.rd + 1, crsp := some { cst := .ok, cdata := some b } })

/-- The model's choice, not the spec's (log 5): in a state outside the invariant, a POP of a slot that has no value
stops the machine. -/
def Obligations.PopOfAnUnwrittenSlotStops : Prop :=
  ∀ s : State, s.rd ≠ s.wrv → slotRead s.mem s.rd = none → exec .pop s = .fault (.unwrittenSlot s.rd)

/-- R80: a POP that the consumer's view allows returns the oldest byte of the contents, and leaves the rest of them. -/
def Obligations.PopReturnsTheOldestByte : Prop :=
  ∀ s : State, RingInv s → s.rd ≠ s.wrv →
    ∃ t b, exec .pop s = .next t ∧ t.crsp = some { cst := .ok, cdata := some b } ∧
      contents s = some b :: contents t ∧ visible s = some b :: visible t

/-- R81: QFULL.C answers whether `u8(WRV + 1) = RD`. True is certain, and stays true until the consumer's own next
operation that moves `RD`, whatever the other agents do; false may be stale. -/
def Obligations.QfullCAnswersAndTrueLasts : Prop :=
  decode (.c 2#3) = .qfullC ∧
  (∀ s : State, exec .qfullC s = .next { s with
    crsp := some { cst := .ok, cflag := some (decide (s.wrv + 1 = s.rd)) } }) ∧
  (∀ (s t : State) (es : List Event), RingInv s → s.wrv + 1 = s.rd →
    (∀ e ∈ es, e ≠ .rstLow ∧ Event.asks e ≠ some .pop ∧ Event.asks e ≠ some .flush) → happenAll es s = .next t →
    fullTrue s = true ∧ t.wrv + 1 = t.rd) ∧
  ∃ s, RingInv s ∧ fullC s = false ∧ fullTrue s = true

/-- R82: QEMPTY.C answers whether `RD = WRV`. False is certain, and a POP that follows on the port succeeds, whatever
the other agents did in between. -/
def Obligations.QemptyCAnswersAndFalseAllowsPop : Prop :=
  decode (.c 3#3) = .qemptyC ∧
  (∀ s : State, exec .qemptyC s = .next { s with
    crsp := some { cst := .ok, cflag := some (decide (s.rd = s.wrv)) } }) ∧
  ∀ (s t : State) (es : List Event), RingInv s → s.rd ≠ s.wrv → (∀ e ∈ es, awayFrom .C e) →
    happenAll es s = .next t →
    emptyTrue s = false ∧ ∃ u, exec .pop t = .next u ∧ statusOn .C u = some .ok

/-- R83: FLUSH sets `RD` to `WRV`, answers OK and writes nothing else; the bytes dropped are exactly the reachable
prefix; directly after it QEMPTY.C answers true and POP fails. -/
def Obligations.FlushDropsWhatTheConsumerSees : Prop :=
  decode (.c 4#3) = .flush ∧
  ∀ s : State, ∃ t, exec .flush s = .next t ∧ t = { s with rd := s.wrv, crsp := some { cst := .ok } } ∧
    exec .qemptyC t = .next { t with crsp := some { cst := .ok, cflag := some true } } ∧
    exec .pop t = .next { t with crsp := some { cst := .fail } } ∧
    (RingInv s → contents s = visible s ++ contents t ∧ (visible s).length = ringDist s.rd s.wrv)

/-- R84: the bytes in flight survive a FLUSH: they are the contents after it, and once SYNCW has stepped all the way
they are visible, in order. The producer's view, and so what the producer is answered, has not changed. -/
def Obligations.BytesInFlightSurviveFlush : Prop :=
  ∀ s : State, RingInv s → s.rstN = true →
    ∃ t u, exec .flush s = .next t ∧ t.rdv = s.rdv ∧ fullP t = fullP s ∧
      (contents t).length = ringDist s.wrv s.wr ∧
      contents t = (contents s).drop (ringDist s.rd s.wrv) ∧
      happen (.syncw (ringDist s.wrv s.wr)) t = .next u ∧ visible u = (contents s).drop (ringDist s.rd s.wrv)

/-- R86: with no step of P or SYNCW in between exactly `dist(RD, WRV)` consecutive POPs return OK, giving the reachable
bytes in order, and the next returns FAIL. -/
def Obligations.PopsDrainExactlyTheReachableBytes : Prop :=
  ∀ s : State, RingInv s → s.outOfReset = true →
    (∀ k, k < ringDist s.rd s.wrv → ∃ t b,
      happenAll (List.replicate (k + 1) (.request (encode .pop))) s = .next t ∧
      t.crsp = some { cst := .ok, cdata := some b } ∧ (contents s)[k]? = some (some b)) ∧
    ∃ t, happenAll (List.replicate (ringDist s.rd s.wrv) (.request (encode .pop))) s = .next t ∧
      exec .pop t = .next { t with crsp := some { cst := .fail } } ∧
      exec .qemptyC t = .next { t with crsp := some { cst := .ok, cflag := some true } }

/-- R87: no operation of the consumer changes `WR`, `RDV` or the memory, and every operation of the producer is
answered after it as before it. -/
def Obligations.ConsumerDoesNotDisturbTheProducer : Prop :=
  ∀ (s t u : State) (i j : Instr), i.port = .C → j.port = .P → exec i s = .next t → exec j s = .next u →
    t.wr = s.wr ∧ t.rdv = s.rdv ∧ (∀ a, slotRead t.mem a = slotRead s.mem a) ∧
    ∃ v, exec j t = .next v ∧ v.prsp = u.prsp ∧ v.wr = u.wr ∧ ∀ a, slotRead v.mem a = slotRead u.mem a

/-- R69, R75, R85: a reserved code of any port answers ILLEGAL with no other field and changes nothing else. -/
def Obligations.ReservedCodesAnswerIllegal : Prop :=
  (∀ w : BitVec 50, w.extractLsb' 48 2 = 3#2 → decode (.k w) = .rsvdK) ∧
  (∀ w : BitVec 11, w.getLsbD 10 = true → decode (.p w) = .rsvdP) ∧
  decode (.c 5#3) = .rsvdC5 ∧ decode (.c 6#3) = .rsvdC6 ∧ decode (.c 7#3) = .rsvdC7 ∧
  ∀ s : State,
    exec .rsvdK s = .next { s with krsp := some { kst := .illegal } } ∧
    exec .rsvdP s = .next { s with prsp := some { pst := .illegal } } ∧
    exec .rsvdC5 s = .next { s with crsp := some { cst := .illegal } } ∧
    exec .rsvdC6 s = .next { s with crsp := some { cst := .illegal } } ∧
    exec .rsvdC7 s = .next { s with crsp := some { cst := .illegal } }

/-! ### The synchronisers -/

/-- R89: SYNCW(n) is enabled for `n <= dist(WRV, WR)` and no other `n`, sets `WRV` to `u8(WRV + n)` and writes nothing
else; with `n` = 0 it changes nothing. That a step that is not enabled is refused by name is the model's choice
(log 4). -/
def Obligations.SyncwAdvancesItsViewWithinReach : Prop :=
  ∀ (n : Nat) (s : State), s.rstN = true →
    (n ≤ ringDist s.wrv s.wr → happen (.syncw n) s = .next { s with wrv := s.wrv + BitVec.ofNat 8 n }) ∧
    (ringDist s.wrv s.wr < n → happen (.syncw n) s = .refused (.syncwNotEnabled n)) ∧
    happen (.syncw 0) s = .next s

/-- R90: SYNCR(n) is enabled for `n <= dist(RDV, RD)` and no other `n`, sets `RDV` to `u8(RDV + n)` and writes nothing
else. That a step that is not enabled is refused by name is the model's choice (log 4). -/
def Obligations.SyncrAdvancesItsViewWithinReach : Prop :=
  ∀ (n : Nat) (s : State), s.rstN = true →
    (n ≤ ringDist s.rdv s.rd → happen (.syncr n) s = .next { s with rdv := s.rdv + BitVec.ofNat 8 n }) ∧
    (ringDist s.rdv s.rd < n → happen (.syncr n) s = .refused (.syncrNotEnabled n)) ∧
    happen (.syncr 0) s = .next s

/-- R91: in every infinite run in which each synchroniser is weakly fair, if the producer stops pushing then `WRV`
reaches `WR` after finitely many steps, and if the consumer stops popping and flushing then `RDV` reaches `RD`. -/
def Obligations.FairSynchronisersCatchUp : Prop :=
  ∀ (st : Nat → State) (ev : Nat → Event), (∀ k, happen (ev k) (st k) = .next (st (k + 1))) → (∀ k, ev k ≠ .rstLow) →
    ((∀ k b, Event.asks (ev k) ≠ some (.push b)) →
      (∀ k, (∀ j ≥ k, (st j).wrv ≠ (st j).wr) → ∃ j ≥ k, ∃ n ≥ 1, ev j = .syncw n) →
      ∃ k, ∀ j ≥ k, (st j).wrv = (st j).wr) ∧
    ((∀ k, Event.asks (ev k) ≠ some .pop ∧ Event.asks (ev k) ≠ some .flush) →
      (∀ k, (∀ j ≥ k, (st j).rdv ≠ (st j).rd) → ∃ j ≥ k, ∃ n ≥ 1, ev j = .syncr n) →
      ∃ k, ∀ j ≥ k, (st j).rdv = (st j).rd)

/-- R93, R94: the gray code and its inverse undo each other, and neighbours, the wrap among them, differ in exactly one
bit; 5 and 200 differ in five. -/
def Obligations.GrayNeighboursDifferInOneBit : Prop :=
  (∀ b, ungray (gray b) = b) ∧ (∀ g, gray (ungray g) = g) ∧
  (∀ b, ∃ i < 8, gray b ^^^ gray (b + 1) = 1#8 <<< i) ∧ gray 5 ^^^ gray 200 = 0b10101011#8

/-- R95: because the gray code changes one bit at a time, a register that catches some bits old and some new, in any
mixture, holds the old or the new code. -/
def Obligations.CaughtGrayCodeIsOldOrNew : Prop :=
  ∀ (b : Index) (mask : BitVec 8),
    capture mask (gray b) (gray (b + 1)) = gray b ∨ capture mask (gray b) (gray (b + 1)) = gray (b + 1)

/-- The circuit's invariant holds after reset (R95, R96, R113). -/
def Obligations.CircuitInvariantHoldsAfterReset : Prop := CircuitInv Circuit.reset

/-- R95, R96, R98: the reference circuit meets the contract. At every clock edge, also where two edges coincide and
bits are caught in any mixture, it goes on, keeps its invariant, and does to the block what the requests of that edge
and then one SYNCR and one SYNCW step of the contract do. How the circuit is modelled at an edge is the model's reading
(log 15). -/
def Obligations.CircuitMeetsTheContract : Prop :=
  ∀ (c : Circuit) (e : Edge), CircuitInv c →
    ∃ (c' : Circuit) (n m : Nat), c.step e = .next c' ∧ CircuitInv c' ∧
      happenAll (e.requests ++ [.syncr n, .syncw m]) c.core = .next c'.core

/-- R99: SETTLE reaches a settled state from any state, by steps that are enabled, and changes nothing but the views. -/
def Obligations.SettleSettles : Prop :=
  ∀ s : State, s.rstN = true →
    ∃ t, happenAll (traceEvents .sSettle s) s = .next t ∧ settled t ∧ t = { s with wrv := s.wr, rdv := s.rd }

/-! ### Failures -/

/-- R100: the complete list of the outcomes that are not OK, over all operations. -/
def Obligations.OnlyTheListedCausesAnswerNotOk : Prop :=
  ∀ (i : Instr) (s t : State), exec i s = .next t →
    (statusOn i.port t = some .fail ↔ (∃ b, i = .push b) ∧ s.wr + 1 = s.rdv ∨ i = .pop ∧ s.rd = s.wrv) ∧
    (statusOn i.port t = some .illegal ↔
      i = .rsvdK ∨ i = .rsvdP ∨ i = .rsvdC5 ∨ i = .rsvdC6 ∨ i = .rsvdC7) ∧
    statusOn i.port t ≠ none

/-- R107: a failing operation changes no architectural state at all. -/
def Obligations.FailingOperationsChangeNothing : Prop :=
  ∀ (i : Instr) (s t : State), exec i s = .next t → statusOn i.port t ≠ some .ok → sameArch s t

/-! ### The machine as a whole -/

/-- A step serves the request that stands first: when it decodes to an instruction, the step is that instruction's
meaning in the state from whose schedule the request has been taken (the schedule is the model's own, log 1). -/
def Obligations.StepServesTheFirstRequest : Prop :=
  ∀ (s : State) (r : Request) (rest : List Event), s.schedule = .request r :: rest → s.outOfReset = true →
    (decode r).wf = true → step s = exec (decode r) { s with schedule := rest }

/-- A step takes the first event of the schedule, whatever it is; with nothing scheduled nothing happens (the model's
own convention, log 1 and log 3). -/
def Obligations.StepTakesTheFirstEvent : Prop :=
  ∀ s : State, (s.schedule = [] → step s = .next s) ∧
    ∀ e rest, s.schedule = e :: rest → step s = happen e { s with schedule := rest }

/-- A request that arrives from outside, given by the bits of its opcode-table row, is what the next step serves (the
model's own convention, log 2 and log 12). -/
def Obligations.ArrivingRequestIsServedNext : Prop :=
  ∀ s : State,
    (∀ w : BitVec 50, step (s.withFetchWord 56 w.toNat) =
      exec (decode (.k w)) { s with rstN := true, upK := true, upP := true, upC := true }) ∧
    (∀ w : BitVec 11, step (s.withFetchWord 16 w.toNat) =
      exec (decode (.p w)) { s with rstN := true, upK := true, upP := true, upC := true }) ∧
    (∀ w : BitVec 3, step (s.withFetchWord 8 w.toNat) =
      exec (decode (.c w)) { s with rstN := true, upK := true, upP := true, upC := true })
end

