-- ==== Sys2Proof/Laws/Decode.lean ====
section
/-! SUPPORT. Fields of words put together with `++`, and the request words bit by bit. -/

namespace Sys2Proof

/-- A field that lies in the low part of a word. -/
theorem extract_append_low {n m s k : Nat} (x : BitVec n) (y : BitVec m) (h : s + k ≤ m) :
    (x ++ y).extractLsb' s k = y.extractLsb' s k := by
  apply BitVec.eq_of_getLsbD_eq
  intro i hi
  simp only [BitVec.getLsbD_extractLsb', BitVec.getLsbD_append, hi, decide_true, Bool.true_and]
  rw [if_pos (by omega)]

/-- A field that lies in the high part of a word. -/
theorem extract_append_high {n m s k : Nat} (x : BitVec n) (y : BitVec m) (h : m ≤ s) :
    (x ++ y).extractLsb' s k = x.extractLsb' (s - m) k := by
  apply BitVec.eq_of_getLsbD_eq
  intro i hi
  simp only [BitVec.getLsbD_extractLsb', BitVec.getLsbD_append, hi, decide_true, Bool.true_and]
  rw [if_neg (by omega)]
  congr 1
  omega

/-- The whole of a word as a field. -/
@[simp] theorem extract_whole {n : Nat} (x : BitVec n) : x.extractLsb' 0 n = x := by
  apply BitVec.eq_of_getLsbD_eq
  intro i hi
  simp [hi]

/-- The bits of a CONV word (R50). -/
theorem convWord_bit (lo hi : Byte) (i : Nat) : (convWord lo hi).getLsbD i =
    if i < 8 then lo.getLsbD i else if i < 16 then hi.getLsbD (i - 8) else decide (i = 48) := by
  have h : (convWord lo hi).getLsbD i = (0b01#2 ++ 0#32 ++ hi ++ lo).getLsbD i := rfl
  rw [h]
  simp only [BitVec.getLsbD_append]
  rcases Nat.lt_or_ge i 50 with hi | hi
  · interval_cases i <;> rfl
  · repeat rw [if_neg (by omega)]
    rw [BitVec.getLsbD_of_ge _ _ (by omega)]
    simp
    omega

/-- The bits of a CONV3 word (R50). -/
theorem conv3Word_bit (b0 b1 b2 b3 b4 b5 : Byte) (i : Nat) : (conv3Word b0 b1 b2 b3 b4 b5).getLsbD i =
    if i < 8 then b0.getLsbD i else if i < 16 then b1.getLsbD (i - 8) else if i < 24 then b2.getLsbD (i - 16)
    else if i < 32 then b3.getLsbD (i - 24) else if i < 40 then b4.getLsbD (i - 32)
    else if i < 48 then b5.getLsbD (i - 40) else decide (i = 49) := by
  have h : (conv3Word b0 b1 b2 b3 b4 b5).getLsbD i = (0b10#2 ++ b5 ++ b4 ++ b3 ++ b2 ++ b1 ++ b0).getLsbD i := rfl
  rw [h]
  simp only [BitVec.getLsbD_append]
  rcases Nat.lt_or_ge i 50 with hi | hi
  · interval_cases i <;> rfl
  · repeat rw [if_neg (by omega)]
    rw [BitVec.getLsbD_of_ge _ _ (by omega)]
    simp
    omega

end Sys2Proof
end

