-- ==== Sys2Proof/Laws/Memory.lean ====
section
/-! SUPPORT. The slot memory: reads after writes, and every operation keeps the canonical form. -/

namespace Sys2Proof.Machine

@[simp] theorem Memory.read_nil (a : Nat) : Memory.read [] a = none := rfl

theorem Memory.read_write_same (m : Memory) (a : Nat) (v : Byte) : (m.write a v).read a = some v := by
  induction m with
  | nil => simp [Memory.write, Memory.read]
  | cons c m ih =>
    obtain ⟨b, w⟩ := c
    simp only [Memory.write]
    split
    · simp [Memory.read]
    · split
      · simp [Memory.read]
      · simp [Memory.read, *]

theorem Memory.read_write_other (m : Memory) (a b : Nat) (v : Byte) (h : b ≠ a) :
    (m.write a v).read b = m.read b := by
  induction m with
  | nil => simp [Memory.write, Memory.read, h]
  | cons c m ih =>
    obtain ⟨d, w⟩ := c
    simp only [Memory.write]
    split
    · simp [Memory.read, h]
    · split
      · simp_all [Memory.read]
      · simp only [Memory.read, ih]

/-- The slots of a written memory are the written one and those that were there. -/
theorem Memory.mem_write {m : Memory} {a : Nat} {v : Byte} {c : Host.Cell} (h : c ∈ m.write a v) :
    c = (a, v) ∨ c ∈ m := by
  induction m with
  | nil => simpa [Memory.write] using h
  | cons d m ih =>
    obtain ⟨b, w⟩ := d
    simp only [Memory.write] at h
    split at h
    · simpa using h
    · split at h
      · rcases List.mem_cons.mp h with h | h
        · exact .inl h
        · exact .inr (List.mem_cons_of_mem _ h)
      · rcases List.mem_cons.mp h with h | h
        · exact .inr (h ▸ List.mem_cons_self)
        · exact (ih h).imp_right (List.mem_cons_of_mem _)

theorem Memory.wf_nil : Memory.wf [] := by simp [Memory.wf]

/-- A write inside the address space keeps the canonical form. -/
theorem Memory.write_wf {m : Memory} {a : Nat} (v : Byte) (ha : a < Config.qSlots) (h : m.wf) : (m.write a v).wf := by
  refine ⟨?_, fun c hc => (Memory.mem_write hc).elim (fun e => e ▸ ha) (h.2 c)⟩
  have hp := h.1
  clear h
  induction m with
  | nil => simp [Memory.write]
  | cons d m ih =>
    obtain ⟨b, w⟩ := d
    rw [List.map_cons, List.pairwise_cons] at hp
    obtain ⟨h1, h2⟩ := hp
    simp only [Memory.write]
    split
    · rename_i hab
      simp only [List.map_cons, List.pairwise_cons]
      refine ⟨fun x hx => ?_, h1, h2⟩
      rcases List.mem_cons.mp hx with rfl | hx
      · exact hab
      · exact Nat.lt_trans hab (h1 x hx)
    · split
      · rename_i hab
        subst hab
        simp only [List.map_cons, List.pairwise_cons]
        exact ⟨h1, h2⟩
      · simp only [List.map_cons, List.pairwise_cons]
        refine ⟨fun x hx => ?_, ih h2⟩
        obtain ⟨c, hc, rfl⟩ := List.mem_map.mp hx
        rcases Memory.mem_write hc with rfl | hc
        · show b < a
          omega
        · exact h1 _ (List.mem_map_of_mem hc)

/-! Slot numbers -/

@[simp] theorem slotRead_nil (a : Index) : slotRead [] a = none := rfl

@[simp] theorem slotRead_slotWrite_same (m : Memory) (a : Index) (v : Byte) :
    slotRead (slotWrite m a v) a = some v := Memory.read_write_same m _ v

theorem slotRead_slotWrite_other {m : Memory} {a b : Index} (v : Byte) (h : b ≠ a) :
    slotRead (slotWrite m a v) b = slotRead m b :=
  Memory.read_write_other m _ _ v fun e => h (BitVec.eq_of_toNat_eq e)

/-- What a slot reads as after a write, in one rule. -/
theorem slotRead_slotWrite (m : Memory) (a b : Index) (v : Byte) :
    slotRead (slotWrite m a v) b = if b = a then some v else slotRead m b := by
  split
  · subst b; exact slotRead_slotWrite_same m a v
  · exact slotRead_slotWrite_other v (by assumption)

theorem slotWrite_wf {m : Memory} (a : Index) (v : Byte) (h : m.wf) : (slotWrite m a v).wf :=
  Memory.write_wf v a.isLt h

end Sys2Proof.Machine
end

