-- ==== Sys2Proof/Laws/Ops.lean ====
section
/-! SUPPORT. The index arithmetic and the status answers in terms of numbers. -/

namespace Sys2Proof.Machine

/-- `ringDist` as a number; with `BitVec.isLt` this lets omega reason about the ring of indices. -/
theorem ringDist_eq (a b : Index) : ringDist a b = (256 - a.toNat + b.toNat) % 256 := by
  simp [ringDist, BitVec.toNat_sub]

theorem ringDist_le (a b : Index) : ringDist a b ≤ 255 := by
  rw [ringDist_eq]; omega

@[simp] theorem ringDist_self (a : Index) : ringDist a a = 0 := by
  rw [ringDist_eq]; omega

theorem ringDist_eq_zero {a b : Index} : ringDist a b = 0 ↔ a = b := by
  refine ⟨fun h => BitVec.eq_of_toNat_eq ?_, fun h => h ▸ ringDist_self a⟩
  rw [ringDist_eq] at h
  have := a.isLt
  have := b.isLt
  omega

theorem advance_toNat (a : Index) : (advance a).toNat = (a.toNat + 1) % 256 := by
  simp [advance, BitVec.toNat_add]

theorem advanceBy_toNat (a : Index) (n : Nat) : (advanceBy a n).toNat = (a.toNat + n) % 256 := by
  simp [advanceBy, BitVec.toNat_add]

@[simp] theorem advanceBy_zero (a : Index) : advanceBy a 0 = a := by
  simp [advanceBy]

theorem advanceBy_one (a : Index) : advanceBy a 1 = advance a := rfl

theorem advanceBy_advanceBy (a : Index) (n m : Nat) : advanceBy (advanceBy a n) m = advanceBy a (n + m) := by
  apply BitVec.eq_of_toNat_eq
  simp only [advanceBy_toNat]
  omega

theorem advanceBy_advance (a : Index) (n : Nat) : advanceBy (advance a) n = advanceBy a (n + 1) := by
  rw [← advanceBy_one, advanceBy_advanceBy, Nat.add_comm]

theorem advanceBy_ringDist (a b : Index) : advanceBy a (ringDist a b) = b := by
  apply BitVec.eq_of_toNat_eq
  rw [advanceBy_toNat, ringDist_eq]
  have := a.isLt
  have := b.isLt
  omega

theorem ringDist_advanceBy {n : Nat} (a : Index) (h : n ≤ 255) : ringDist a (advanceBy a n) = n := by
  rw [ringDist_eq, advanceBy_toNat]
  have := a.isLt
  omega

/-- Moving the far end on, as long as the circle is not completed. -/
theorem ringDist_advanceBy_right {n : Nat} {a b : Index} (h : ringDist a b + n ≤ 255) :
    ringDist a (advanceBy b n) = ringDist a b + n := by
  rw [ringDist_eq] at h ⊢
  rw [advanceBy_toNat]
  rw [ringDist_eq]
  have := a.isLt
  have := b.isLt
  omega

/-- Moving the near end on, as long as it does not pass the far end. -/
theorem ringDist_advanceBy_left {n : Nat} {a b : Index} (h : n ≤ ringDist a b) :
    ringDist (advanceBy a n) b = ringDist a b - n := by
  rw [ringDist_eq] at h ⊢
  rw [advanceBy_toNat]
  rw [ringDist_eq]
  have := a.isLt
  have := b.isLt
  omega

/-- Two arcs one after the other, as long as they do not complete the circle. -/
theorem ringDist_trans {a b c : Index} (h : ringDist a b + ringDist b c ≤ 255) : ringDist a c = ringDist a b + ringDist b c := by
  have := a.isLt
  have := b.isLt
  have := c.isLt
  simp only [ringDist_eq] at *
  omega

/-- `u8(b + 1) = a` says that one more step from `b` completes the circle from `a`. -/
theorem advance_eq_iff {a b : Index} : advance b = a ↔ ringDist a b = 255 := by
  have ha := a.isLt
  have hb := b.isLt
  rw [ringDist_eq]
  constructor
  · intro h
    have := congrArg BitVec.toNat h
    rw [advance_toNat] at this
    omega
  · intro h
    apply BitVec.eq_of_toNat_eq
    rw [advance_toNat]
    omega

/-! The status answers as distances -/

theorem fullP_iff (s : State) : fullP s = true ↔ ringDist s.rdv s.wr = 255 := by
  simp [fullP, advance_eq_iff]

theorem emptyP_iff (s : State) : emptyP s = true ↔ ringDist s.rdv s.wr = 0 := by
  simp [emptyP, ringDist_eq_zero]

theorem fullC_iff (s : State) : fullC s = true ↔ ringDist s.rd s.wrv = 255 := by
  simp [fullC, advance_eq_iff]

theorem emptyC_iff (s : State) : emptyC s = true ↔ ringDist s.rd s.wrv = 0 := by
  simp [emptyC, ringDist_eq_zero]

theorem fullTrue_iff (s : State) : fullTrue s = true ↔ ringDist s.rd s.wr = 255 := by
  simp [fullTrue, advance_eq_iff]

theorem emptyTrue_iff (s : State) : emptyTrue s = true ↔ ringDist s.rd s.wr = 0 := by
  simp [emptyTrue, ringDist_eq_zero]

end Sys2Proof.Machine
end

