-- ==== Sys2Proof/Laws/State.lean ====
section
/-! SUPPORT. One lemma per field per update of State, so that no proof unfolds a record update. -/

namespace Sys2Proof.Machine

/-! `respondK` -/

@[simp] theorem respondK_mem (r : KRsp) (s : State) : (respondK r s).mem = s.mem := rfl
@[simp] theorem respondK_wr (r : KRsp) (s : State) : (respondK r s).wr = s.wr := rfl
@[simp] theorem respondK_rd (r : KRsp) (s : State) : (respondK r s).rd = s.rd := rfl
@[simp] theorem respondK_rdv (r : KRsp) (s : State) : (respondK r s).rdv = s.rdv := rfl
@[simp] theorem respondK_wrv (r : KRsp) (s : State) : (respondK r s).wrv = s.wrv := rfl
@[simp] theorem respondK_krsp (r : KRsp) (s : State) : (respondK r s).krsp = some r := rfl
@[simp] theorem respondK_prsp (r : KRsp) (s : State) : (respondK r s).prsp = s.prsp := rfl
@[simp] theorem respondK_crsp (r : KRsp) (s : State) : (respondK r s).crsp = s.crsp := rfl
@[simp] theorem respondK_rstN (r : KRsp) (s : State) : (respondK r s).rstN = s.rstN := rfl
@[simp] theorem respondK_upK (r : KRsp) (s : State) : (respondK r s).upK = s.upK := rfl
@[simp] theorem respondK_upP (r : KRsp) (s : State) : (respondK r s).upP = s.upP := rfl
@[simp] theorem respondK_upC (r : KRsp) (s : State) : (respondK r s).upC = s.upC := rfl
@[simp] theorem respondK_schedule (r : KRsp) (s : State) : (respondK r s).schedule = s.schedule := rfl

/-! `respondP` -/

@[simp] theorem respondP_mem (r : PRsp) (s : State) : (respondP r s).mem = s.mem := rfl
@[simp] theorem respondP_wr (r : PRsp) (s : State) : (respondP r s).wr = s.wr := rfl
@[simp] theorem respondP_rd (r : PRsp) (s : State) : (respondP r s).rd = s.rd := rfl
@[simp] theorem respondP_rdv (r : PRsp) (s : State) : (respondP r s).rdv = s.rdv := rfl
@[simp] theorem respondP_wrv (r : PRsp) (s : State) : (respondP r s).wrv = s.wrv := rfl
@[simp] theorem respondP_krsp (r : PRsp) (s : State) : (respondP r s).krsp = s.krsp := rfl
@[simp] theorem respondP_prsp (r : PRsp) (s : State) : (respondP r s).prsp = some r := rfl
@[simp] theorem respondP_crsp (r : PRsp) (s : State) : (respondP r s).crsp = s.crsp := rfl
@[simp] theorem respondP_rstN (r : PRsp) (s : State) : (respondP r s).rstN = s.rstN := rfl
@[simp] theorem respondP_upK (r : PRsp) (s : State) : (respondP r s).upK = s.upK := rfl
@[simp] theorem respondP_upP (r : PRsp) (s : State) : (respondP r s).upP = s.upP := rfl
@[simp] theorem respondP_upC (r : PRsp) (s : State) : (respondP r s).upC = s.upC := rfl
@[simp] theorem respondP_schedule (r : PRsp) (s : State) : (respondP r s).schedule = s.schedule := rfl

/-! `respondC` -/

@[simp] theorem respondC_mem (r : CRsp) (s : State) : (respondC r s).mem = s.mem := rfl
@[simp] theorem respondC_wr (r : CRsp) (s : State) : (respondC r s).wr = s.wr := rfl
@[simp] theorem respondC_rd (r : CRsp) (s : State) : (respondC r s).rd = s.rd := rfl
@[simp] theorem respondC_rdv (r : CRsp) (s : State) : (respondC r s).rdv = s.rdv := rfl
@[simp] theorem respondC_wrv (r : CRsp) (s : State) : (respondC r s).wrv = s.wrv := rfl
@[simp] theorem respondC_krsp (r : CRsp) (s : State) : (respondC r s).krsp = s.krsp := rfl
@[simp] theorem respondC_prsp (r : CRsp) (s : State) : (respondC r s).prsp = s.prsp := rfl
@[simp] theorem respondC_crsp (r : CRsp) (s : State) : (respondC r s).crsp = some r := rfl
@[simp] theorem respondC_rstN (r : CRsp) (s : State) : (respondC r s).rstN = s.rstN := rfl
@[simp] theorem respondC_upK (r : CRsp) (s : State) : (respondC r s).upK = s.upK := rfl
@[simp] theorem respondC_upP (r : CRsp) (s : State) : (respondC r s).upP = s.upP := rfl
@[simp] theorem respondC_upC (r : CRsp) (s : State) : (respondC r s).upC = s.upC := rfl
@[simp] theorem respondC_schedule (r : CRsp) (s : State) : (respondC r s).schedule = s.schedule := rfl

/-! `storeByte` -/

@[simp] theorem storeByte_mem (v : Byte) (s : State) : (storeByte v s).mem = slotWrite s.mem s.wr v := rfl
@[simp] theorem storeByte_wr (v : Byte) (s : State) : (storeByte v s).wr = advance s.wr := rfl
@[simp] theorem storeByte_rd (v : Byte) (s : State) : (storeByte v s).rd = s.rd := rfl
@[simp] theorem storeByte_rdv (v : Byte) (s : State) : (storeByte v s).rdv = s.rdv := rfl
@[simp] theorem storeByte_wrv (v : Byte) (s : State) : (storeByte v s).wrv = s.wrv := rfl
@[simp] theorem storeByte_krsp (v : Byte) (s : State) : (storeByte v s).krsp = s.krsp := rfl
@[simp] theorem storeByte_prsp (v : Byte) (s : State) : (storeByte v s).prsp = s.prsp := rfl
@[simp] theorem storeByte_crsp (v : Byte) (s : State) : (storeByte v s).crsp = s.crsp := rfl
@[simp] theorem storeByte_rstN (v : Byte) (s : State) : (storeByte v s).rstN = s.rstN := rfl
@[simp] theorem storeByte_upK (v : Byte) (s : State) : (storeByte v s).upK = s.upK := rfl
@[simp] theorem storeByte_upP (v : Byte) (s : State) : (storeByte v s).upP = s.upP := rfl
@[simp] theorem storeByte_upC (v : Byte) (s : State) : (storeByte v s).upC = s.upC := rfl
@[simp] theorem storeByte_schedule (v : Byte) (s : State) : (storeByte v s).schedule = s.schedule := rfl

/-! `setRd` -/

@[simp] theorem setRd_mem (i : Index) (s : State) : (setRd i s).mem = s.mem := rfl
@[simp] theorem setRd_wr (i : Index) (s : State) : (setRd i s).wr = s.wr := rfl
@[simp] theorem setRd_rd (i : Index) (s : State) : (setRd i s).rd = i := rfl
@[simp] theorem setRd_rdv (i : Index) (s : State) : (setRd i s).rdv = s.rdv := rfl
@[simp] theorem setRd_wrv (i : Index) (s : State) : (setRd i s).wrv = s.wrv := rfl
@[simp] theorem setRd_krsp (i : Index) (s : State) : (setRd i s).krsp = s.krsp := rfl
@[simp] theorem setRd_prsp (i : Index) (s : State) : (setRd i s).prsp = s.prsp := rfl
@[simp] theorem setRd_crsp (i : Index) (s : State) : (setRd i s).crsp = s.crsp := rfl
@[simp] theorem setRd_rstN (i : Index) (s : State) : (setRd i s).rstN = s.rstN := rfl
@[simp] theorem setRd_upK (i : Index) (s : State) : (setRd i s).upK = s.upK := rfl
@[simp] theorem setRd_upP (i : Index) (s : State) : (setRd i s).upP = s.upP := rfl
@[simp] theorem setRd_upC (i : Index) (s : State) : (setRd i s).upC = s.upC := rfl
@[simp] theorem setRd_schedule (i : Index) (s : State) : (setRd i s).schedule = s.schedule := rfl

/-! `setWrv` -/

@[simp] theorem setWrv_mem (i : Index) (s : State) : (setWrv i s).mem = s.mem := rfl
@[simp] theorem setWrv_wr (i : Index) (s : State) : (setWrv i s).wr = s.wr := rfl
@[simp] theorem setWrv_rd (i : Index) (s : State) : (setWrv i s).rd = s.rd := rfl
@[simp] theorem setWrv_rdv (i : Index) (s : State) : (setWrv i s).rdv = s.rdv := rfl
@[simp] theorem setWrv_wrv (i : Index) (s : State) : (setWrv i s).wrv = i := rfl
@[simp] theorem setWrv_krsp (i : Index) (s : State) : (setWrv i s).krsp = s.krsp := rfl
@[simp] theorem setWrv_prsp (i : Index) (s : State) : (setWrv i s).prsp = s.prsp := rfl
@[simp] theorem setWrv_crsp (i : Index) (s : State) : (setWrv i s).crsp = s.crsp := rfl
@[simp] theorem setWrv_rstN (i : Index) (s : State) : (setWrv i s).rstN = s.rstN := rfl
@[simp] theorem setWrv_upK (i : Index) (s : State) : (setWrv i s).upK = s.upK := rfl
@[simp] theorem setWrv_upP (i : Index) (s : State) : (setWrv i s).upP = s.upP := rfl
@[simp] theorem setWrv_upC (i : Index) (s : State) : (setWrv i s).upC = s.upC := rfl
@[simp] theorem setWrv_schedule (i : Index) (s : State) : (setWrv i s).schedule = s.schedule := rfl

/-! `setRdv` -/

@[simp] theorem setRdv_mem (i : Index) (s : State) : (setRdv i s).mem = s.mem := rfl
@[simp] theorem setRdv_wr (i : Index) (s : State) : (setRdv i s).wr = s.wr := rfl
@[simp] theorem setRdv_rd (i : Index) (s : State) : (setRdv i s).rd = s.rd := rfl
@[simp] theorem setRdv_rdv (i : Index) (s : State) : (setRdv i s).rdv = i := rfl
@[simp] theorem setRdv_wrv (i : Index) (s : State) : (setRdv i s).wrv = s.wrv := rfl
@[simp] theorem setRdv_krsp (i : Index) (s : State) : (setRdv i s).krsp = s.krsp := rfl
@[simp] theorem setRdv_prsp (i : Index) (s : State) : (setRdv i s).prsp = s.prsp := rfl
@[simp] theorem setRdv_crsp (i : Index) (s : State) : (setRdv i s).crsp = s.crsp := rfl
@[simp] theorem setRdv_rstN (i : Index) (s : State) : (setRdv i s).rstN = s.rstN := rfl
@[simp] theorem setRdv_upK (i : Index) (s : State) : (setRdv i s).upK = s.upK := rfl
@[simp] theorem setRdv_upP (i : Index) (s : State) : (setRdv i s).upP = s.upP := rfl
@[simp] theorem setRdv_upC (i : Index) (s : State) : (setRdv i s).upC = s.upC := rfl
@[simp] theorem setRdv_schedule (i : Index) (s : State) : (setRdv i s).schedule = s.schedule := rfl

/-! `setSchedule` -/

@[simp] theorem setSchedule_mem (es : List Event) (s : State) : (setSchedule es s).mem = s.mem := rfl
@[simp] theorem setSchedule_wr (es : List Event) (s : State) : (setSchedule es s).wr = s.wr := rfl
@[simp] theorem setSchedule_rd (es : List Event) (s : State) : (setSchedule es s).rd = s.rd := rfl
@[simp] theorem setSchedule_rdv (es : List Event) (s : State) : (setSchedule es s).rdv = s.rdv := rfl
@[simp] theorem setSchedule_wrv (es : List Event) (s : State) : (setSchedule es s).wrv = s.wrv := rfl
@[simp] theorem setSchedule_krsp (es : List Event) (s : State) : (setSchedule es s).krsp = s.krsp := rfl
@[simp] theorem setSchedule_prsp (es : List Event) (s : State) : (setSchedule es s).prsp = s.prsp := rfl
@[simp] theorem setSchedule_crsp (es : List Event) (s : State) : (setSchedule es s).crsp = s.crsp := rfl
@[simp] theorem setSchedule_rstN (es : List Event) (s : State) : (setSchedule es s).rstN = s.rstN := rfl
@[simp] theorem setSchedule_upK (es : List Event) (s : State) : (setSchedule es s).upK = s.upK := rfl
@[simp] theorem setSchedule_upP (es : List Event) (s : State) : (setSchedule es s).upP = s.upP := rfl
@[simp] theorem setSchedule_upC (es : List Event) (s : State) : (setSchedule es s).upC = s.upC := rfl
@[simp] theorem setSchedule_schedule (es : List Event) (s : State) : (setSchedule es s).schedule = es := rfl

/-! `assertReset` -/

@[simp] theorem assertReset_mem (s : State) : (assertReset s).mem = [] := rfl
@[simp] theorem assertReset_wr (s : State) : (assertReset s).wr = 0 := rfl
@[simp] theorem assertReset_rd (s : State) : (assertReset s).rd = 0 := rfl
@[simp] theorem assertReset_rdv (s : State) : (assertReset s).rdv = 0 := rfl
@[simp] theorem assertReset_wrv (s : State) : (assertReset s).wrv = 0 := rfl
@[simp] theorem assertReset_krsp (s : State) : (assertReset s).krsp = none := rfl
@[simp] theorem assertReset_prsp (s : State) : (assertReset s).prsp = none := rfl
@[simp] theorem assertReset_crsp (s : State) : (assertReset s).crsp = none := rfl
@[simp] theorem assertReset_rstN (s : State) : (assertReset s).rstN = false := rfl
@[simp] theorem assertReset_upK (s : State) : (assertReset s).upK = false := rfl
@[simp] theorem assertReset_upP (s : State) : (assertReset s).upP = false := rfl
@[simp] theorem assertReset_upC (s : State) : (assertReset s).upC = false := rfl
@[simp] theorem assertReset_schedule (s : State) : (assertReset s).schedule = s.schedule := rfl

/-! `releaseReset` -/

@[simp] theorem releaseReset_mem (s : State) : (releaseReset s).mem = s.mem := rfl
@[simp] theorem releaseReset_wr (s : State) : (releaseReset s).wr = s.wr := rfl
@[simp] theorem releaseReset_rd (s : State) : (releaseReset s).rd = s.rd := rfl
@[simp] theorem releaseReset_rdv (s : State) : (releaseReset s).rdv = s.rdv := rfl
@[simp] theorem releaseReset_wrv (s : State) : (releaseReset s).wrv = s.wrv := rfl
@[simp] theorem releaseReset_krsp (s : State) : (releaseReset s).krsp = s.krsp := rfl
@[simp] theorem releaseReset_prsp (s : State) : (releaseReset s).prsp = s.prsp := rfl
@[simp] theorem releaseReset_crsp (s : State) : (releaseReset s).crsp = s.crsp := rfl
@[simp] theorem releaseReset_rstN (s : State) : (releaseReset s).rstN = true := rfl
@[simp] theorem releaseReset_upK (s : State) : (releaseReset s).upK = s.upK := rfl
@[simp] theorem releaseReset_upP (s : State) : (releaseReset s).upP = s.upP := rfl
@[simp] theorem releaseReset_upC (s : State) : (releaseReset s).upC = s.upC := rfl
@[simp] theorem releaseReset_schedule (s : State) : (releaseReset s).schedule = s.schedule := rfl

/-! A status on a port (`answerStatus` and its three uses) -/

@[simp] theorem answerStatus_mem (p : Port) (st : Status) (s : State) : (answerStatus p st s).mem = s.mem := by cases p <;> rfl
@[simp] theorem answerStatus_wr (p : Port) (st : Status) (s : State) : (answerStatus p st s).wr = s.wr := by cases p <;> rfl
@[simp] theorem answerStatus_rd (p : Port) (st : Status) (s : State) : (answerStatus p st s).rd = s.rd := by cases p <;> rfl
@[simp] theorem answerStatus_rdv (p : Port) (st : Status) (s : State) : (answerStatus p st s).rdv = s.rdv := by cases p <;> rfl
@[simp] theorem answerStatus_wrv (p : Port) (st : Status) (s : State) : (answerStatus p st s).wrv = s.wrv := by cases p <;> rfl
@[simp] theorem answerStatus_K_krsp (st : Status) (s : State) : (answerStatus .K st s).krsp = some { kst := st } := rfl
@[simp] theorem answerStatus_P_krsp (st : Status) (s : State) : (answerStatus .P st s).krsp = s.krsp := rfl
@[simp] theorem answerStatus_C_krsp (st : Status) (s : State) : (answerStatus .C st s).krsp = s.krsp := rfl
@[simp] theorem answerStatus_K_prsp (st : Status) (s : State) : (answerStatus .K st s).prsp = s.prsp := rfl
@[simp] theorem answerStatus_P_prsp (st : Status) (s : State) : (answerStatus .P st s).prsp = some { pst := st } := rfl
@[simp] theorem answerStatus_C_prsp (st : Status) (s : State) : (answerStatus .C st s).prsp = s.prsp := rfl
@[simp] theorem answerStatus_K_crsp (st : Status) (s : State) : (answerStatus .K st s).crsp = s.crsp := rfl
@[simp] theorem answerStatus_P_crsp (st : Status) (s : State) : (answerStatus .P st s).crsp = s.crsp := rfl
@[simp] theorem answerStatus_C_crsp (st : Status) (s : State) : (answerStatus .C st s).crsp = some { cst := st } := rfl
@[simp] theorem answerStatus_rstN (p : Port) (st : Status) (s : State) : (answerStatus p st s).rstN = s.rstN := by cases p <;> rfl
@[simp] theorem answerStatus_upK (p : Port) (st : Status) (s : State) : (answerStatus p st s).upK = s.upK := by cases p <;> rfl
@[simp] theorem answerStatus_upP (p : Port) (st : Status) (s : State) : (answerStatus p st s).upP = s.upP := by cases p <;> rfl
@[simp] theorem answerStatus_upC (p : Port) (st : Status) (s : State) : (answerStatus p st s).upC = s.upC := by cases p <;> rfl
@[simp] theorem answerStatus_schedule (p : Port) (st : Status) (s : State) : (answerStatus p st s).schedule = s.schedule := by cases p <;> rfl
@[simp] theorem answerFail_eq (p : Port) (s : State) : answerFail p s = answerStatus p .fail s := rfl
@[simp] theorem answerIllegal_eq (p : Port) (s : State) : answerIllegal p s = answerStatus p .illegal s := rfl
@[simp] theorem answerOk_eq (p : Port) (s : State) : answerOk p s = answerStatus p .ok s := rfl

/-! A domain leaves reset -/

@[simp] theorem domainUp_mem (p : Port) (s : State) : (domainUp p s).mem = s.mem := by cases p <;> rfl
@[simp] theorem domainUp_wr (p : Port) (s : State) : (domainUp p s).wr = s.wr := by cases p <;> rfl
@[simp] theorem domainUp_rd (p : Port) (s : State) : (domainUp p s).rd = s.rd := by cases p <;> rfl
@[simp] theorem domainUp_rdv (p : Port) (s : State) : (domainUp p s).rdv = s.rdv := by cases p <;> rfl
@[simp] theorem domainUp_wrv (p : Port) (s : State) : (domainUp p s).wrv = s.wrv := by cases p <;> rfl
@[simp] theorem domainUp_krsp (p : Port) (s : State) : (domainUp p s).krsp = s.krsp := by cases p <;> rfl
@[simp] theorem domainUp_prsp (p : Port) (s : State) : (domainUp p s).prsp = s.prsp := by cases p <;> rfl
@[simp] theorem domainUp_crsp (p : Port) (s : State) : (domainUp p s).crsp = s.crsp := by cases p <;> rfl
@[simp] theorem domainUp_rstN (p : Port) (s : State) : (domainUp p s).rstN = s.rstN := by cases p <;> rfl
@[simp] theorem domainUp_K_upK (s : State) : (domainUp .K s).upK = true := rfl
@[simp] theorem domainUp_P_upK (s : State) : (domainUp .P s).upK = s.upK := rfl
@[simp] theorem domainUp_C_upK (s : State) : (domainUp .C s).upK = s.upK := rfl
@[simp] theorem domainUp_K_upP (s : State) : (domainUp .K s).upP = s.upP := rfl
@[simp] theorem domainUp_P_upP (s : State) : (domainUp .P s).upP = true := rfl
@[simp] theorem domainUp_C_upP (s : State) : (domainUp .C s).upP = s.upP := rfl
@[simp] theorem domainUp_K_upC (s : State) : (domainUp .K s).upC = s.upC := rfl
@[simp] theorem domainUp_P_upC (s : State) : (domainUp .P s).upC = s.upC := rfl
@[simp] theorem domainUp_C_upC (s : State) : (domainUp .C s).upC = true := rfl
@[simp] theorem domainUp_schedule (p : Port) (s : State) : (domainUp p s).schedule = s.schedule := by cases p <;> rfl

end Sys2Proof.Machine
end

