-- ==== Sys2Proof/Laws/Exec.lean ====
section
/-! SUPPORT. What an instruction, an event and a step can do, said once each. -/

namespace Sys2Proof.Machine

/-- A record update that puts back the same schedule changes nothing. -/
@[simp] theorem setSchedule_self (s : State) : setSchedule s.schedule s = s := rfl

/-- PUSH: what it can do (R72). -/
theorem execPush_cases {b : Byte} {s t : State} (h : execPush b s = .next t) :
    (fullP s = true ∧ t = answerFail .P s) ∨ (fullP s = false ∧ t = answerOk .P (storeByte b s)) := by
  unfold execPush at h
  split at h
  · exact .inl ⟨by assumption, by cases h; rfl⟩
  · exact .inr ⟨by simp_all, by cases h; rfl⟩

/-- POP: what it can do (R79). -/
theorem execPop_cases {s t : State} (h : execPop s = .next t) :
    (emptyC s = true ∧ t = answerFail .C s) ∨
      (emptyC s = false ∧ ∃ b, slotRead s.mem s.rd = some b ∧
        t = respondC { cst := .ok, cdata := some b } (setRd (advance s.rd) s)) := by
  unfold execPop at h
  split at h
  · exact .inl ⟨by assumption, by cases h; rfl⟩
  · split at h
    · cases h
    · next b hb => exact .inr ⟨by simp_all, b, hb, by cases h; rfl⟩

/-- An operation that neither stores nor moves an index: it answers on its port. -/
inductive Answers (i : Instr) (s t : State) : Prop where
  | onK (r : KRsp) (port : i.port = .K) (wf : r.wf i = true) (eq : t = respondK r s)
  | onP (r : PRsp) (port : i.port = .P) (wf : r.wf i = true) (eq : t = respondP r s)
  | onC (r : CRsp) (port : i.port = .C) (wf : r.wf i = true) (eq : t = respondC r s)

theorem Answers.sameArch {i : Instr} {s t : State} (h : Answers i s t) : sameArch s t := by
  rcases h with ⟨_, _, _, rfl⟩ | ⟨_, _, _, rfl⟩ | ⟨_, _, _, rfl⟩ <;> exact ⟨rfl, rfl, rfl, rfl, rfl⟩

/-- Every operation: it stores a byte (a PUSH with room), moves `RD` (a POP with a byte, a FLUSH), or only answers. -/
theorem exec_cases {i : Instr} {s t : State} (h : exec i s = .next t) :
    (∃ b, i = .push b ∧ fullP s = false ∧ t = answerOk .P (storeByte b s)) ∨
    (i = .pop ∧ emptyC s = false ∧ ∃ b, slotRead s.mem s.rd = some b ∧
      t = respondC { cst := .ok, cdata := some b } (setRd (advance s.rd) s)) ∨
    (i = .flush ∧ t = answerOk .C (setRd s.wrv s)) ∨ Answers i s t := by
  cases i with
  | push b =>
    rcases execPush_cases h with ⟨_, rfl⟩ | ⟨hf, rfl⟩
    · exact .inr (.inr (.inr (.onP _ rfl rfl rfl)))
    · exact .inl ⟨b, rfl, hf, rfl⟩
  | pop =>
    rcases execPop_cases h with ⟨_, rfl⟩ | ⟨he, b, hb, rfl⟩
    · exact .inr (.inr (.inr (.onC _ rfl rfl rfl)))
    · exact .inr (.inl ⟨rfl, he, b, hb, rfl⟩)
  | flush => cases h; exact .inr (.inr (.inl ⟨rfl, rfl⟩))
  | nopK => cases h; exact .inr (.inr (.inr (.onK _ rfl rfl rfl)))
  | conv lo hi => cases h; exact .inr (.inr (.inr (.onK _ rfl rfl rfl)))
  | conv3 b0 b1 b2 b3 b4 b5 => cases h; exact .inr (.inr (.inr (.onK _ rfl rfl rfl)))
  | rsvdK => cases h; exact .inr (.inr (.inr (.onK _ rfl rfl rfl)))
  | nopP => cases h; exact .inr (.inr (.inr (.onP _ rfl rfl rfl)))
  | qfullP => cases h; exact .inr (.inr (.inr (.onP _ rfl rfl rfl)))
  | qemptyP => cases h; exact .inr (.inr (.inr (.onP _ rfl rfl rfl)))
  | rsvdP => cases h; exact .inr (.inr (.inr (.onP _ rfl rfl rfl)))
  | nopC => cases h; exact .inr (.inr (.inr (.onC _ rfl rfl rfl)))
  | qfullC => cases h; exact .inr (.inr (.inr (.onC _ rfl rfl rfl)))
  | qemptyC => cases h; exact .inr (.inr (.inr (.onC _ rfl rfl rfl)))
  | rsvdC5 => cases h; exact .inr (.inr (.inr (.onC _ rfl rfl rfl)))
  | rsvdC6 => cases h; exact .inr (.inr (.inr (.onC _ rfl rfl rfl)))
  | rsvdC7 => cases h; exact .inr (.inr (.inr (.onC _ rfl rfl rfl)))

/-- A synchroniser step, when it is taken (R89, R90). -/
theorem stepSyncw_cases {n : Nat} {s t : State} (h : stepSyncw n s = .next t) :
    s.rstN = true ∧ n ≤ ringDist s.wrv s.wr ∧ t = setWrv (advanceBy s.wrv n) s := by
  unfold stepSyncw at h
  split at h
  · cases h
  · split at h
    · exact ⟨by simp_all, by assumption, by cases h; rfl⟩
    · cases h

theorem stepSyncr_cases {n : Nat} {s t : State} (h : stepSyncr n s = .next t) :
    s.rstN = true ∧ n ≤ ringDist s.rdv s.rd ∧ t = setRdv (advanceBy s.rdv n) s := by
  unfold stepSyncr at h
  split at h
  · cases h
  · split at h
    · exact ⟨by simp_all, by assumption, by cases h; rfl⟩
    · cases h

/-- Every event: a request is the meaning of its instruction, out of reset; a synchroniser moves its view within
reach; the reset input. -/
theorem happen_cases {e : Event} {s t : State} (h : happen e s = .next t) :
    (∃ r, e = .request r ∧ s.outOfReset = true ∧ exec (decode r) s = .next t) ∨
    (∃ n, e = .syncw n ∧ s.rstN = true ∧ n ≤ ringDist s.wrv s.wr ∧ t = setWrv (advanceBy s.wrv n) s) ∨
    (∃ n, e = .syncr n ∧ s.rstN = true ∧ n ≤ ringDist s.rdv s.rd ∧ t = setRdv (advanceBy s.rdv n) s) ∨
    (e = .rstLow ∧ t = assertReset s) ∨ (e = .rstHigh ∧ t = releaseReset s) ∨
    (∃ p, e = .leaveReset p ∧ s.rstN = true ∧ t = domainUp p s) := by
  cases e with
  | request r =>
    change serveRequest r s = .next t at h
    unfold serveRequest at h
    split at h
    · exact .inl ⟨r, rfl, by assumption, h⟩
    · cases h
  | syncw n => exact .inr (.inl ⟨n, rfl, stepSyncw_cases h⟩)
  | syncr n => exact .inr (.inr (.inl ⟨n, rfl, stepSyncr_cases h⟩))
  | rstLow => exact .inr (.inr (.inr (.inl ⟨rfl, by cases h; rfl⟩)))
  | rstHigh => exact .inr (.inr (.inr (.inr (.inl ⟨rfl, by cases h; rfl⟩))))
  | leaveReset p =>
    change stepLeaveReset p s = .next t at h
    unfold stepLeaveReset at h
    split at h
    · exact .inr (.inr (.inr (.inr (.inr ⟨p, rfl, by assumption, by cases h; rfl⟩))))
    · cases h

/-- What an event does to the architectural items, with everything else forgotten: the six ways they can change, or
none. -/
theorem happen_arch {e : Event} {s t : State} (h : happen e s = .next t) :
    (∃ b, Event.asks e = some (.push b) ∧ fullP s = false ∧ sameArch (storeByte b s) t) ∨
    (Event.asks e = some .pop ∧ emptyC s = false ∧ (slotRead s.mem s.rd).isSome ∧
      sameArch (setRd (advance s.rd) s) t) ∨
    (Event.asks e = some .flush ∧ sameArch (setRd s.wrv s) t) ∨
    (∃ n, e = .syncw n ∧ n ≤ ringDist s.wrv s.wr ∧ sameArch (setWrv (advanceBy s.wrv n) s) t) ∨
    (∃ n, e = .syncr n ∧ n ≤ ringDist s.rdv s.rd ∧ sameArch (setRdv (advanceBy s.rdv n) s) t) ∨
    (e = .rstLow ∧ sameArch State.reset t) ∨ sameArch s t := by
  rcases happen_cases h with ⟨r, rfl, _, h⟩ | ⟨n, rfl, _, hn, rfl⟩ | ⟨n, rfl, _, hn, rfl⟩ | ⟨rfl, rfl⟩ | ⟨rfl, rfl⟩ |
    ⟨p, rfl, _, rfl⟩
  · rcases exec_cases h with ⟨b, hi, hf, rfl⟩ | ⟨hi, he, b, hb, rfl⟩ | ⟨hi, rfl⟩ | ha
    · exact .inl ⟨b, by simp [Event.asks, hi], hf, rfl, rfl, rfl, rfl, rfl⟩
    · exact .inr (.inl ⟨by simp [Event.asks, hi], he, by simp [hb], rfl, rfl, rfl, rfl, rfl⟩)
    · exact .inr (.inr (.inl ⟨by simp [Event.asks, hi], rfl, rfl, rfl, rfl, rfl⟩))
    · exact .inr (.inr (.inr (.inr (.inr (.inr ha.sameArch)))))
  · exact .inr (.inr (.inr (.inl ⟨n, rfl, hn, rfl, rfl, rfl, rfl, rfl⟩)))
  · exact .inr (.inr (.inr (.inr (.inl ⟨n, rfl, hn, rfl, rfl, rfl, rfl, rfl⟩))))
  · exact .inr (.inr (.inr (.inr (.inr (.inl ⟨rfl, rfl, rfl, rfl, rfl, rfl⟩)))))
  · exact .inr (.inr (.inr (.inr (.inr (.inr ⟨rfl, rfl, rfl, rfl, rfl⟩)))))
  · exact .inr (.inr (.inr (.inr (.inr (.inr (by cases p <;> exact ⟨rfl, rfl, rfl, rfl, rfl⟩))))))

/-- A step is the first event of the schedule. -/
theorem step_cons {s : State} {e : Event} {rest : List Event} (h : s.schedule = e :: rest) :
    step s = happen e (setSchedule rest s) := by
  unfold step takeEvent
  rw [h]

theorem step_nil {s : State} (h : s.schedule = []) : step s = .next s := by
  unfold step takeEvent
  rw [h]

/-- One event, then the rest. -/
theorem happenAll_cons {e : Event} {es : List Event} {s t : State} (h : happenAll (e :: es) s = .next t) :
    ∃ u, happen e s = .next u ∧ happenAll es u = .next t := by
  unfold happenAll at h
  split at h
  · next u hu => exact ⟨u, hu, h⟩
  · cases h
  · cases h

@[simp] theorem happenAll_nil (s : State) : happenAll [] s = .next s := rfl

theorem happenAll_cons_of {e : Event} {es : List Event} {s u : State} (h : happen e s = .next u) :
    happenAll (e :: es) s = happenAll es u := by
  simp only [happenAll, h]

/-- A run of the host's machine, one step and then the rest. -/
theorem run_next {k : Nat} {s u : State} (h : step s = .next u) :
    Host.Core.run Sys2Proof.core (k + 1) s = Host.Core.run Sys2Proof.core k u := by
  have h' : Sys2Proof.core.step s = .next u := h
  simp only [Host.Core.run, h']

theorem run_cases {k : Nat} {s t : State} (h : Host.Core.run Sys2Proof.core (k + 1) s = .next t) :
    ∃ u, step s = .next u ∧ Host.Core.run Sys2Proof.core k u = .next t := by
  cases hs : step s with
  | next u => exact ⟨u, rfl, (run_next hs).symm.trans h⟩
  | fault f =>
    have h' : Sys2Proof.core.step s = .fault f := hs
    simp only [Host.Core.run, h'] at h
    cases h
  | refused r =>
    have h' : Sys2Proof.core.step s = .refused r := hs
    simp only [Host.Core.run, h'] at h
    cases h

/-- The invariant reads the five architectural items and nothing else. -/
theorem RingInv.congr {s t : State} (h : sameArch s t) (hs : RingInv s) : RingInv t := by
  obtain ⟨h1, h2, h3, h4, h5⟩ := h
  exact ⟨by rw [h1]; exact hs.memWf, by rw [h2, h3, h4]; exact hs.ring, by rw [h2, h3, h5]; exact hs.view,
    by rw [h1, h2, h3]; exact hs.written⟩

/-- So do the contents. -/
theorem contents_congr {s t : State} (h : sameArch s t) : contents t = contents s := by
  obtain ⟨h1, h2, h3, _, _⟩ := h
  simp only [contents, h1, h2, h3]

end Sys2Proof.Machine
end

