-- ==== Sys2Proof/Laws/PerInstr.lean ====
section
/-! SUPPORT. Statements about every instruction as syntax, one lemma per constructor. -/

namespace Sys2Proof.Laws

/-- The request word of an instruction belongs to the row of the opcode map that bears its mnemonic (R50). -/
def EncodeCovered.Statement (i : Instr) : Prop :=
  ∃ row ∈ opcodeMap, row.mnemonic = i.mnemonic ∧ row.covers (encode i) = true

/-- The two bits of `kop` are the ones the masks of port K keep (R41, R50). -/
theorem conv_word_masked (lo hi : Byte) :
    (0b01#2 ++ 0#32 ++ hi ++ lo : BitVec 50).toNat &&& 0x3000000000000 = 0x1000000000000 := by
  have h : (0b01#2 ++ 0#32 ++ hi ++ lo : BitVec 50) &&& 0x3000000000000#50 = 0x1000000000000#50 := by
    apply BitVec.eq_of_getLsbD_eq
    intro i _
    interval_cases i <;> simp only [BitVec.getLsbD_and, BitVec.getLsbD_append] <;> simp
  exact (BitVec.toNat_and ..).symm.trans (congrArg BitVec.toNat h)

theorem conv3_word_masked (b0 b1 b2 b3 b4 b5 : Byte) :
    (0b10#2 ++ b5 ++ b4 ++ b3 ++ b2 ++ b1 ++ b0 : BitVec 50).toNat &&& 0x3000000000000 = 0x2000000000000 := by
  have h : (0b10#2 ++ b5 ++ b4 ++ b3 ++ b2 ++ b1 ++ b0 : BitVec 50) &&& 0x3000000000000#50 = 0x2000000000000#50 := by
    apply BitVec.eq_of_getLsbD_eq
    intro i _
    interval_cases i <;> simp only [BitVec.getLsbD_and, BitVec.getLsbD_append] <;> simp
  exact (BitVec.toNat_and ..).symm.trans (congrArg BitVec.toNat h)

theorem push_word_masked (b : Byte) : (0b001#3 ++ b : BitVec 11).toNat &&& 0x700 = 0x100 := by
  revert b
  decide

theorem EncodeCovered.nopK : EncodeCovered.Statement .nopK :=
  ⟨⟨"NOP.K", .K, 0x0000000000000, 0x3000000000000⟩, by decide, rfl, by decide⟩

theorem EncodeCovered.conv (lo hi : Byte) : EncodeCovered.Statement (.conv lo hi) :=
  ⟨⟨"CONV", .K, 0x1000000000000, 0x3000000000000⟩, by decide, rfl, by
    simpa [OpcodeRow.covers, encode, Request.port, Request.toNat, convWord, conv3Word, pushWord] using conv_word_masked lo hi⟩

theorem EncodeCovered.conv3 (b0 b1 b2 b3 b4 b5 : Byte) : EncodeCovered.Statement (.conv3 b0 b1 b2 b3 b4 b5) :=
  ⟨⟨"CONV3", .K, 0x2000000000000, 0x3000000000000⟩, by decide, rfl, by
    simpa [OpcodeRow.covers, encode, Request.port, Request.toNat, convWord, conv3Word, pushWord] using conv3_word_masked b0 b1 b2 b3 b4 b5⟩

theorem EncodeCovered.rsvdK : EncodeCovered.Statement .rsvdK :=
  ⟨⟨"RSVD.K", .K, 0x3000000000000, 0x3000000000000⟩, by decide, rfl, by decide⟩

theorem EncodeCovered.nopP : EncodeCovered.Statement .nopP :=
  ⟨⟨"NOP.P", .P, 0x000, 0x700⟩, by decide, rfl, by decide⟩

theorem EncodeCovered.push (pdata : Byte) : EncodeCovered.Statement (.push pdata) :=
  ⟨⟨"PUSH", .P, 0x100, 0x700⟩, by decide, rfl, by
    simpa [OpcodeRow.covers, encode, Request.port, Request.toNat, convWord, conv3Word, pushWord] using push_word_masked pdata⟩

theorem EncodeCovered.qfullP : EncodeCovered.Statement .qfullP :=
  ⟨⟨"QFULL.P", .P, 0x200, 0x700⟩, by decide, rfl, by decide⟩

theorem EncodeCovered.qemptyP : EncodeCovered.Statement .qemptyP :=
  ⟨⟨"QEMPTY.P", .P, 0x300, 0x700⟩, by decide, rfl, by decide⟩

theorem EncodeCovered.rsvdP : EncodeCovered.Statement .rsvdP :=
  ⟨⟨"RSVD.P", .P, 0x400, 0x400⟩, by decide, rfl, by decide⟩

theorem EncodeCovered.nopC : EncodeCovered.Statement .nopC :=
  ⟨⟨"NOP.C", .C, 0x0, 0x7⟩, by decide, rfl, by decide⟩

theorem EncodeCovered.pop : EncodeCovered.Statement .pop :=
  ⟨⟨"POP", .C, 0x1, 0x7⟩, by decide, rfl, by decide⟩

theorem EncodeCovered.qfullC : EncodeCovered.Statement .qfullC :=
  ⟨⟨"QFULL.C", .C, 0x2, 0x7⟩, by decide, rfl, by decide⟩

theorem EncodeCovered.qemptyC : EncodeCovered.Statement .qemptyC :=
  ⟨⟨"QEMPTY.C", .C, 0x3, 0x7⟩, by decide, rfl, by decide⟩

theorem EncodeCovered.flush : EncodeCovered.Statement .flush :=
  ⟨⟨"FLUSH", .C, 0x4, 0x7⟩, by decide, rfl, by decide⟩

theorem EncodeCovered.rsvdC5 : EncodeCovered.Statement .rsvdC5 :=
  ⟨⟨"RSVD.C5", .C, 0x5, 0x7⟩, by decide, rfl, by decide⟩

theorem EncodeCovered.rsvdC6 : EncodeCovered.Statement .rsvdC6 :=
  ⟨⟨"RSVD.C6", .C, 0x6, 0x7⟩, by decide, rfl, by decide⟩

theorem EncodeCovered.rsvdC7 : EncodeCovered.Statement .rsvdC7 :=
  ⟨⟨"RSVD.C7", .C, 0x7, 0x7⟩, by decide, rfl, by decide⟩

end Sys2Proof.Laws
end

