-- ==== Sys2Proof/Laws/Terms.lean ====
section
/-! SUPPORT. The terms of Safety.lean: what each queue operation does to the contents of the queue, what a list of
bytes that stands for a state says of its indices, and runs of several events. -/

namespace Sys2Proof.Machine

/-- The raw sample of the operands is the number R47 writes. -/
theorem rawSample_eq_signed16 (lo hi : Byte) : rawSample lo hi = signed16 lo hi := by
  have h1 := lo.isLt
  have h2 := hi.isLt
  simp only [rawSample, rawWord, signed16, BitVec.toInt_eq_toNat_cond, BitVec.toNat_append]
  rw [← Nat.shiftLeft_add_eq_or_of_lt h1, Nat.shiftLeft_eq]
  split <;> split <;> omega

/-! ### Contents -/

theorem contents_length (s : State) : (contents s).length = ringDist s.rd s.wr := by
  simp [contents]

theorem contents_getElem? {s : State} {i : Nat} (h : i < ringDist s.rd s.wr) :
    (contents s)[i]? = some (slotRead s.mem (advanceBy s.rd i)) := by
  simp [contents, h]

/-- A PUSH that is not refused appends its byte. -/
theorem contents_storeByte {s : State} (b : Byte) (hi : RingInv s) (hf : fullP s = false) :
    contents (storeByte b s) = contents s ++ [some b] := by
  have hf' : ringDist s.rdv s.wr ≠ 255 := fun e => by simp [(fullP_iff s).2 e] at hf
  have e1 := ringDist_trans hi.ring
  have := hi.ring
  have d1 := ringDist_advanceBy_right (n := 1) (a := s.rd) (b := s.wr) (by omega)
  rw [advanceBy_one] at d1
  unfold contents
  simp only [storeByte_rd, storeByte_wr, storeByte_mem, d1, List.range_succ, List.map_append, List.map_cons,
    List.map_nil, advanceBy_ringDist, slotRead_slotWrite_same]
  congr 1
  apply List.map_congr_left
  intro i hi'
  rw [List.mem_range] at hi'
  apply slotRead_slotWrite_other
  intro e
  have := ringDist_le s.rd s.wr
  have := ringDist_advanceBy (n := i) s.rd (by omega)
  rw [e] at this
  omega

/-- Moving `RD` on by `n` drops the `n` oldest bytes. -/
theorem contents_setRd {s : State} {n : Nat} (h : n ≤ ringDist s.rd s.wr) :
    contents (setRd (advanceBy s.rd n) s) = (contents s).drop n := by
  apply List.ext_getElem?
  intro i
  rw [List.getElem?_drop]
  by_cases hi : n + i < ringDist s.rd s.wr
  · rw [contents_getElem? hi, contents_getElem?]
    · simp [advanceBy_advanceBy]
    · simp [ringDist_advanceBy_left h]
      omega
  · rw [List.getElem?_eq_none, List.getElem?_eq_none]
    · simp [contents_length]
      omega
    · simp [contents_length, ringDist_advanceBy_left h]
      omega

@[simp] theorem contents_setWrv (s : State) (i : Index) : contents (setWrv i s) = contents s := rfl

@[simp] theorem contents_setRdv (s : State) (i : Index) : contents (setRdv i s) = contents s := rfl

/-! ### The list of bytes that a state stands for -/

/-- It reads the five architectural items and nothing else. -/
theorem Represents.congr {s t : State} {q : Queue} (h : sameArch s t) (hr : Represents s q) : Represents t q := by
  have hc := contents_congr h
  obtain ⟨_, _, h3, h4, h5⟩ := h
  exact ⟨hc ▸ hr.bytes, by rw [h3, h5]; exact hr.seen, by rw [h3, h4]; exact hr.lag⟩

theorem Represents.length {s : State} {q : Queue} (hr : Represents s q) : q.bytes.length = ringDist s.rd s.wr := by
  have := congrArg List.length hr.bytes
  rw [contents_length, List.length_map] at this
  exact this.symm

/-- What the producer can see used: the bytes and the lag. -/
theorem Represents.length_add_lag {s : State} {q : Queue} (hi : RingInv s) (hr : Represents s q) :
    q.bytes.length + q.lag = ringDist s.rdv s.wr := by
  rw [hr.length, hr.lag, ringDist_trans hi.ring]
  omega

/-! ### Several events -/

/-- A property that each of the events keeps holds after all of them. -/
theorem happenAll_induction {P : State → Prop} {Q : Event → Prop}
    (keep : ∀ e s t, Q e → P s → happen e s = .next t → P t) :
    ∀ (es : List Event) (s t : State), (∀ e ∈ es, Q e) → P s → happenAll es s = .next t → P t := by
  intro es
  induction es with
  | nil => intro s t _ hs h; cases h; exact hs
  | cons e es ih =>
    intro s t hq hs h
    obtain ⟨u, hu, h⟩ := happenAll_cons h
    exact ih u t (fun e he => hq e (List.mem_cons_of_mem _ he)) (keep e s u (hq e List.mem_cons_self) hs hu) h

theorem happenAll_append {es fs : List Event} {s t : State} (h : happenAll es s = .next t) :
    happenAll (es ++ fs) s = happenAll fs t := by
  induction es generalizing s with
  | nil => cases h; rfl
  | cons e es ih =>
    obtain ⟨u, hu, h⟩ := happenAll_cons h
    rw [List.cons_append, happenAll_cons_of hu]
    exact ih h

/-- Out of reset, a request is its instruction's meaning. -/
theorem happen_request {r : Request} {s : State} (ho : s.outOfReset = true) :
    happen (.request r) s = exec (decode r) s := by
  show serveRequest r s = _
  simp [serveRequest, ho]

end Sys2Proof.Machine
end

