-- ==== Sys2Proof/Tests/Slice0.lean ====
section
/-! SUPPORT. The tests: what the checks refuse, words written out from the encodings, one or two worked examples of the
spec for each instruction (95_test_vectors.md, or the example of the instruction's own rule), and for every statement
with hypotheses a state that meets them. -/

namespace Sys2Proof.Tests

open Sys2Proof Sys2Proof.Machine

/-! ### Helpers -/

/-- The next state of an outcome, if there is one. -/
def nextOf (o : Host.Outcome State Fault Refusal) : Option State :=
  match o with
  | .next t => some t
  | _ => none

theorem eq_next {o : Host.Outcome State Fault Refusal} {t : State} (h : nextOf o = some t) : o = .next t := by
  cases o with
  | next u => cases h; rfl
  | fault f => cases h
  | refused r => cases h

/-- What the machine refuses, if it does. -/
def refusalOf (o : Host.Outcome State Fault Refusal) : Option Refusal :=
  match o with
  | .refused r => some r
  | _ => none

/-- The state after a request word is served by one step of the machine. -/
def served (s : State) (nbits w : Nat) : Option State := nextOf (step (s.withFetchWord nbits w))

/-- A state after reset but for its memory and indices. -/
def queueAt (mem : Memory) (wr rd rdv wrv : Index) : State :=
  { State.reset with mem := mem, wr := wr, rd := rd, rdv := rdv, wrv := wrv }

/-- The answer on port K when it carries sample 0 alone. -/
def sampleAnswer (int0 : BitVec 64) (frac0 : BitVec 32) : KRsp :=
  { kst := .ok, int0 := some int0, frac0 := some frac0 }

/-! ### The checks refuse what is ill-formed -/

/-- A 16-bit operand just outside what 16 bits can hold (R54, log 17). -/
theorem test_wf_refuses_wide_samples :
    (TraceLine.kConv 65536).wf = false ∧ (TraceLine.kConv (-32769)).wf = false ∧
    (TraceLine.kConvt 65536 0 0).wf = false ∧ (TraceLine.kConvt 0 (-32769) 0).wf = false ∧
    (TraceLine.kConvt 0 0 65536).wf = false ∧ (TraceLine.pPush16 65536).wf = false := by decide

/-- A byte just outside 0 to 255, in every place (R54). -/
theorem test_wf_refuses_wide_bytes :
    (TraceLine.kConv3 256 0 0 0 0 0).wf = false ∧ (TraceLine.kConv3 0 256 0 0 0 0).wf = false ∧
    (TraceLine.kConv3 0 0 256 0 0 0).wf = false ∧ (TraceLine.kConv3 0 0 0 256 0 0).wf = false ∧
    (TraceLine.kConv3 0 0 0 0 256 0).wf = false ∧ (TraceLine.kConv3 0 0 0 0 0 256).wf = false ∧
    (TraceLine.pPush 256).wf = false ∧ (TraceLine.kConvb 256 0).wf = false ∧
    (TraceLine.kConvb 0 256).wf = false := by decide

theorem test_wf_accepts_the_extremes :
    (TraceLine.kConv 65535).wf = true ∧ (TraceLine.kConv (-32768)).wf = true ∧ (TraceLine.pPush 255).wf = true ∧
    (TraceLine.kConvb 255 255).wf = true := by decide

/-- A response with a field that is not valid after its request, or without one that is (R44, R46, R126). -/
theorem test_wf_refuses_wrong_fields :
    KRsp.wf .nopK (sampleAnswer 0 0) = false ∧ KRsp.wf (.conv 0 0) { kst := .ok } = false ∧
    KRsp.wf (.conv 0 0) { sampleAnswer 0 0 with int1 := some 0 } = false ∧
    KRsp.wf (.conv3 0 0 0 0 0 0) (sampleAnswer 0 0) = false ∧
    PRsp.wf (.push 0) { pst := .ok, pflag := some true } = false ∧ PRsp.wf .qfullP { pst := .ok } = false ∧
    CRsp.wf .pop { cst := .fail, cdata := some 0 } = false ∧ CRsp.wf .pop { cst := .ok } = false ∧
    CRsp.wf .qemptyC { cst := .ok, cdata := some 0 } = false := by decide

/-! ### Words written out from R50: each constructor from a word of its row, operand and ignored bits not zero -/

theorem test_decode_port_k :
    decode (.k 0b00101010111100110111101111000000010010001101000101#50) = .nopK ∧
    decode (.k 0b01111111111111111111111111111111110000000011001100#50) = .conv 0xCC#8 0x00#8 ∧
    decode (.k 0b10111100000000000011111111111111110000000011001100#50) =
      .conv3 0xCC#8 0x00#8 0xFF#8 0xFF#8 0x00#8 0xF0#8 ∧
    decode (.k 0b11111111111111111111111111111111111111111111111111#50) = .rsvdK := by decide

theorem test_decode_port_p :
    decode (.p 0b00010101010#11) = .nopP ∧ decode (.p 0b00101000001#11) = .push 0x41#8 ∧
    decode (.p 0b01010101011#11) = .qfullP ∧ decode (.p 0b01111111111#11) = .qemptyP ∧
    decode (.p 0b10000000000#11) = .rsvdP ∧ decode (.p 0b10100000001#11) = .rsvdP ∧
    decode (.p 0b11001000000#11) = .rsvdP ∧ decode (.p 0b11111111111#11) = .rsvdP := by decide

theorem test_decode_port_c :
    decode (.c 0b000#3) = .nopC ∧ decode (.c 0b001#3) = .pop ∧ decode (.c 0b010#3) = .qfullC ∧
    decode (.c 0b011#3) = .qemptyC ∧ decode (.c 0b100#3) = .flush ∧ decode (.c 0b101#3) = .rsvdC5 ∧
    decode (.c 0b110#3) = .rsvdC6 ∧ decode (.c 0b111#3) = .rsvdC7 := by decide

/-- The numbers of the opcode table, one byte for port C, two for P, seven for K; too wide a number is refused. -/
theorem test_table_words :
    decodeTableWord 56 0x10000000000CC = some (.conv 0xCC#8 0x00#8) ∧ decodeTableWord 56 0x3000000000000 = some .rsvdK ∧
    decodeTableWord 16 0x141 = some (.push 0x41#8) ∧ decodeTableWord 16 0x7FF = some .rsvdP ∧
    decodeTableWord 8 4 = some .flush ∧ decodeTableWord 8 8 = none ∧ decodeTableWord 16 0x800 = none ∧
    decodeTableWord 56 0x4000000000000 = none ∧ decodeTableWord 0 0 = none ∧ decodeTableWord 72 0 = none := by decide

/-- The request words of the spec's examples are what the encoder writes (95_test_vectors.md). -/
theorem test_encode :
    encode (.conv 0xFF#8 0xFF#8) = .k 0x100000000FFFF#50 ∧
    encode (.conv3 0xFF#8 0x7F#8 0x00#8 0x80#8 0x01#8 0x00#8) = .k 0x2000180007FFF#50 ∧
    encode (.push 0xFE#8) = .p 0x1FE#11 ∧ encode .flush = .c 0b100#3 := by decide

/-! ### Port K (95_test_vectors.md 2.1 to 2.3) -/

theorem test_nopK :
    (served State.reset 56 0x0ABCDEF012345).bind State.krsp = some { kst := .ok } := by decide

/-- S2: 204 is (100, 278300); the ignored bits are all ones. -/
theorem test_conv_204 :
    (served State.reset 56 0x1FFFFFFFF00CC).bind State.krsp =
      some (sampleAnswer 0x0000000000000064#64 0x00043F1C#32) := by decide

/-- S3: the remainder of -1 has the sign of the dividend. -/
theorem test_conv_minus_one :
    (served State.reset 56 0x100000000FFFF).bind State.krsp =
      some (sampleAnswer 0x0000000000000000#64 0xFFB52E63#32) := by decide

/-- Row 4 of 2.2: the two extreme operands and 1. -/
theorem test_conv3_extremes :
    (served State.reset 56 0x2000180007FFF).bind State.krsp =
      some ⟨.ok, some 0x0000000000003EC2#64, some 0x006EA163#32, some 0xFFFFFFFFFFFFC13D#64, some 0xFFDF2380#32,
        some 0x0000000000000000#64, some 0x004AD19D#32⟩ := by decide

/-- The whole response word of row 2 of 2.2. -/
theorem test_conv3_response_word :
    ((served State.reset 56 0x2F000FFFF00CC).bind State.krsp).map (fun r => (encodeKRsp r 0).toNat) =
      some 0x0FFFFFFFFFFFFF828FFC2AC000000000000000000FFB52E63000000000000006400043F1C := by decide

theorem test_rsvdK :
    (served State.reset 56 0x3FFFFFFFFFFFF).bind State.krsp = some { kst := .illegal } := by decide

/-- R63: 0x1000 is +4096, not sign-extended from bit 12; -32768 is the smallest operand (2.1). -/
theorem test_phys_outside_13_bits : phys 4096 = (2008, 4019200) ∧ phys (-32768) = (-16067, -2153600) := by decide

/-! ### Port P (2.4) -/

theorem test_nopP : (served (queueAt [] 4 0 5 0) 16 0x000).bind State.prsp = some { pst := .ok } := by decide

/-- `WR` = 255 advances to 0. -/
theorem test_push_wraps :
    served (queueAt [] 255 10 10 10) 16 0x100 =
      some { queueAt [(255, 0x00#8)] 0 10 10 10 with prsp := some { pst := .ok } } := by decide

/-- Full as the producer sees it: nothing is stored. -/
theorem test_push_fails_when_full :
    served (queueAt [(4, 0x77#8)] 4 5 5 5) 16 0x1FF =
      some { queueAt [(4, 0x77#8)] 4 5 5 5 with prsp := some { pst := .fail } } := by decide

theorem test_qfullP :
    (served (queueAt [] 4 5 5 4) 16 0x200).bind State.prsp = some { pst := .ok, pflag := some true } ∧
    (served (queueAt [] 4 6 6 4) 16 0x2AB).bind State.prsp = some { pst := .ok, pflag := some false } := by decide

theorem test_qemptyP :
    (served (queueAt [] 4 4 4 4) 16 0x300).bind State.prsp = some { pst := .ok, pflag := some true } ∧
    (served (queueAt [] 4 4 3 4) 16 0x300).bind State.prsp = some { pst := .ok, pflag := some false } := by decide

theorem test_rsvdP :
    served State.reset 16 0x4AB = some { State.reset with prsp := some { pst := .illegal } } := by decide

/-! ### Port C (2.5) -/

theorem test_nopC : (served (queueAt [] 7 2 2 7) 8 0).bind State.crsp = some { cst := .ok } := by decide

/-- `RD` = 255 advances to 0, and the byte stays in its slot (R34). -/
theorem test_pop_wraps :
    served (queueAt [(255, 0x9C#8)] 3 255 255 3) 8 1 =
      some { queueAt [(255, 0x9C#8)] 3 0 255 3 with crsp := some { cst := .ok, cdata := some 0x9C#8 } } := by decide

/-- Step 3 of program P2: the byte is there but not yet visible. -/
theorem test_pop_fails_when_not_visible :
    served (queueAt [(0, 0x41#8)] 1 0 0 0) 8 1 =
      some { queueAt [(0, 0x41#8)] 1 0 0 0 with crsp := some { cst := .fail } } := by decide

theorem test_qfullC :
    (served (queueAt [] 255 0 0 255) 8 2).bind State.crsp = some { cst := .ok, cflag := some true } ∧
    (served (queueAt [] 5 5 5 5) 8 2).bind State.crsp = some { cst := .ok, cflag := some false } := by decide

theorem test_qemptyC :
    (served (queueAt [] 6 5 5 5) 8 3).bind State.crsp = some { cst := .ok, cflag := some true } ∧
    (served (queueAt [] 6 5 5 6) 8 3).bind State.crsp = some { cst := .ok, cflag := some false } := by decide

/-- Across the wrap; `WR` is ahead of the view and plays no part. -/
theorem test_flush_wraps :
    served (queueAt [] 5 250 250 3) 8 4 =
      some { queueAt [] 5 3 250 3 with crsp := some { cst := .ok } } := by decide

theorem test_rsvdC5 : (served State.reset 8 5).bind State.crsp = some { cst := .illegal } := by decide

theorem test_rsvdC6 : (served State.reset 8 6).bind State.crsp = some { cst := .illegal } := by decide

theorem test_rsvdC7 : (served State.reset 8 7).bind State.crsp = some { cst := .illegal } := by decide

/-! ### Synchronisers (2.6), gray code (2.6), the trace notation (R55), the reference circuit (R95, R96) -/

theorem test_syncw :
    nextOf (happen (.syncw 4) (queueAt [] 2 254 254 254)) = some (queueAt [] 2 254 254 2) ∧
    refusalOf (happen (.syncw 4) (queueAt [] 5 2 2 2)) = some (.syncwNotEnabled 4) := by decide

theorem test_syncr :
    nextOf (happen (.syncr 2) (queueAt [] 7 7 2 7)) = some (queueAt [] 7 7 4 7) ∧
    refusalOf (happen (.syncr 1) (queueAt [] 9 9 9 9)) = some (.syncrNotEnabled 1) := by decide

theorem test_gray_samples :
    gray 2 = 0x03#8 ∧ gray 3 = 0x02#8 ∧ gray 4 = 0x06#8 ∧ gray 7 = 0x04#8 ∧ gray 8 = 0x0C#8 ∧ gray 127 = 0x40#8 ∧
    gray 128 = 0xC0#8 ∧ gray 254 = 0x81#8 ∧ gray 255 = 0x80#8 ∧ ungray 0x81#8 = 254 := by decide

theorem test_trace_lines :
    traceEvents (.kConv (-1)) State.reset = [.request (.k 0x100000000FFFF#50)] ∧
    traceEvents (.pPush16 0xF000) State.reset = [.request (.p 0x100#11), .request (.p 0x1F0#11)] ∧
    traceEvents (.kConvt 204 (-1) (-4096)) State.reset = [.request (.k 0x2F000FFFF00CC#50)] ∧
    traceEvents .sSettle (queueAt [] 249 250 250 250) = [.syncw 255, .syncr 0] := by decide

/-- The next circuit of an outcome, if there is one. -/
def nextCircuit (o : Host.Outcome Circuit Fault Refusal) : Option Circuit :=
  match o with
  | .next c => some c
  | _ => none

/-- A PUSH on an edge of clk_p loads `WRG`; `RDX` walks one step towards `RD` on an edge of clk_c. -/
theorem test_circuit_edges :
    (nextCircuit (Circuit.reset.step (.clkP (some 0x141#11)))).map (fun c => (c.core.wr, c.wrg, c.s1, c.core.wrv)) =
      some (1, 1, 0, 0) ∧
    (nextCircuit (Circuit.step { Circuit.reset with core := queueAt [] 7 7 0 7 } (.clkC none))).map
      (fun c => (c.rdx, c.rdg, c.t1)) = some (1, 1, 0) := by decide

/-! ### Witnesses: for each statement with hypotheses, a state that meets them, at the edges of their ranges -/

/-- Every slot written, so that any indices within the ring are an invariant state. -/
def fullMem : Memory := (List.range 256).map fun a => (a, 0#8)

theorem fullMem_wf : Memory.wf fullMem := by decide +kernel

theorem fullMem_read : ∀ a, (slotRead fullMem a).isSome = true := by decide +kernel

theorem inv_fullMem (wr rd rdv wrv : Index) (ring : ringDist rdv rd + ringDist rd wr ≤ 255)
    (view : ringDist rd wrv + ringDist wrv wr = ringDist rd wr) : RingInv (queueAt fullMem wr rd rdv wrv) :=
  ⟨fullMem_wf, ring, view, fun _ _ => fullMem_read _⟩

/-- One byte, visible. -/
def oneByte : State := queueAt [(0, 0x41#8)] 1 0 0 1

theorem inv_oneByte : RingInv oneByte :=
  ⟨by decide, by decide, by decide, by decide⟩

/-- The byte is gone, and the producer has not seen it go. -/
def onePopped : State := { queueAt [(0, 0x41#8)] 1 1 0 1 with crsp := some { cst := .ok, cdata := some 0x41#8 } }

theorem pop_oneByte : happen (.request (.c 1#3)) oneByte = .next onePopped := rfl

/-- Three bytes, two of them visible (program P4, step 4). -/
def inFlight : State := queueAt [(0, 0x10#8), (1, 0x11#8), (2, 0x12#8)] 3 0 0 2

theorem inv_inFlight : RingInv inFlight :=
  ⟨by decide, by decide, by decide, by decide⟩

/-- Full and settled: 255 bytes. -/
def fullQueue : State := queueAt fullMem 255 0 0 255

theorem inv_fullQueue : RingInv fullQueue := inv_fullMem _ _ _ _ (by decide) (by decide)

/-- One short of full. -/
def almostFull : State := queueAt fullMem 254 0 0 254

theorem inv_almostFull : RingInv almostFull := inv_fullMem _ _ _ _ (by decide) (by decide)

theorem inv_reset : RingInv State.reset := ⟨by decide, by decide, by decide, by decide⟩

/-- `rst_n` low; and `rst_n` high with one domain, the last, still in reset. -/
theorem witness_NothingIsServedWhileResetIsLow :
    ((assertReset oneByte).rstN = false ∧ (assertReset oneByte).outOfReset = false) ∧
    ({ oneByte with upC := false } : State).rstN = true ∧ ({ oneByte with upC := false } : State).outOfReset = false := by
  decide

theorem witness_BringUpInAnyOrderReachesService : Port.K ≠ Port.P ∧ Port.P ≠ Port.C ∧ Port.K ≠ Port.C := by decide

/-- One event for each clause: the producer's, the two of the consumer's, the two synchronisers'. -/
theorem witness_EachPieceOfStateHasOneWriter :
    (∃ t, happen (.request (.p 0x141#11)) State.reset = .next t ∧ t.mem ≠ State.reset.mem ∧ t.wr ≠ State.reset.wr) ∧
    (∃ t, happen (.request (.c 1#3)) oneByte = .next t ∧ t.rd ≠ oneByte.rd) ∧
    (∃ t, happen (.request (.c 4#3)) oneByte = .next t ∧ t.rd ≠ oneByte.rd) ∧
    (∃ t, happen (.syncr 1) onePopped = .next t ∧ t.rdv ≠ onePopped.rdv) ∧
    (∃ t, happen (.syncw 1) inFlight = .next t ∧ t.wrv ≠ inFlight.wrv) :=
  ⟨⟨_, rfl, by decide, by decide⟩, ⟨_, rfl, by decide⟩, ⟨_, rfl, by decide⟩, ⟨_, rfl, by decide⟩,
    ⟨_, rfl, by decide⟩⟩

theorem witness_ViewsNeverPassTheirIndexNorGoBack :
    Event.syncw 1 ≠ .rstLow ∧ (∃ t, happen (.syncw 1) inFlight = .next t) ∧
    (∃ t, happen (.syncr 1) onePopped = .next t) := ⟨by decide, ⟨_, rfl⟩, ⟨_, rfl⟩⟩

theorem witness_EveryStepKeepsTheInvariant :
    ∃ s t : State, RingInv s ∧ step s = .next t ∧ t.rd ≠ s.rd :=
  ⟨{ oneByte with schedule := [.request (.c 1#3)] }, onePopped,
    RingInv.congr (s := oneByte) ⟨rfl, rfl, rfl, rfl, rfl⟩ inv_oneByte, rfl, by decide⟩

theorem witness_NoStepFaultsUnderTheInvariant : RingInv oneByte := inv_oneByte

/-- A state for each clause: the last push is free; one byte; none; 255; settled. -/
theorem witness_CertainAnswersAreTrue :
    (RingInv almostFull ∧ fullP almostFull = false) ∧ (RingInv oneByte ∧ emptyC oneByte = false) ∧
    (RingInv State.reset ∧ emptyP State.reset = true) ∧ (RingInv fullQueue ∧ fullC fullQueue = true) ∧
    (settled State.reset ∧ settled fullQueue) :=
  ⟨⟨inv_almostFull, by decide⟩, ⟨inv_oneByte, by decide⟩, ⟨inv_reset, by decide⟩, ⟨inv_fullQueue, by decide⟩,
    ⟨rfl, rfl⟩, ⟨rfl, rfl⟩⟩

theorem witness_BlockRefinesTheListOfBytes :
    RingInv oneByte ∧ Represents oneByte ⟨[0x41#8], 1, 0⟩ ∧ happen (.request (.c 1#3)) oneByte = .next onePopped :=
  ⟨inv_oneByte, ⟨by decide, by decide, by decide⟩, rfl⟩

theorem witness_EveryInvariantStateStandsForOneQueue : RingInv inFlight := inv_inFlight

/-- An empty queue, a PUSH scheduled, and the run of its one step. -/
theorem witness_BytesComeOutInTheOrderPushed :
    ∃ s t : State, RingInv s ∧ contents s = [] ∧ noReset s ∧ Host.Core.run Sys2Proof.core 1 s = .next t ∧
      pushedBytes (history 1 s) = [0x41#8] ∧ flushes (history 1 s) = 0 :=
  ⟨State.reset.withFetchWord 16 0x141, { queueAt [(0, 0x41#8)] 1 0 0 0 with prsp := some { pst := .ok } },
    RingInv.congr (s := State.reset) ⟨rfl, rfl, rfl, rfl, rfl⟩ inv_reset, rfl, by unfold noReset; decide, rfl, by decide, by decide⟩

theorem witness_ProducerAndConsumerStepsCommute : RingInv oneByte ∧ oneByte.outOfReset = true := ⟨inv_oneByte, rfl⟩

theorem witness_ConverterStepsCommuteWithTheQueue :
    oneByte.outOfReset = true ∧ awayFrom .K (.request (.c 1#3)) ∧ awayFrom .K (.syncr 0) := by
  refine ⟨rfl, ⟨by decide, ?_⟩, ⟨by decide, ?_⟩⟩
  · intro i h
    cases h
    decide
  · intro i h
    cases h

theorem witness_RequestsLeaveTheRestAlone :
    (∃ t, exec (.conv 0xCC#8 0) oneByte = .next t) ∧ (∃ t, exec (.push 1) oneByte = .next t) ∧
    (∃ t, exec .flush oneByte = .next t) := ⟨⟨_, rfl⟩, ⟨_, rfl⟩, ⟨_, rfl⟩⟩

theorem witness_DecodeOfEncodeIsTheInstruction :
    (Instr.conv 0xFF#8 0x80#8).wf = true ∧ (Instr.push 0xFF#8).wf = true ∧ Instr.flush.wf = true := ⟨rfl, rfl, rfl⟩

theorem witness_ResponseFieldsStandWhereTheTablesSay :
    (⟨.ok, some 1, some 2, some 3, some 4, some 5, some 6⟩ : KRsp).int2 = some 5 ∧
    ({ pst := .ok, pflag := some true } : PRsp).pflag = some true ∧
    ({ cst := .ok, cdata := some 0xFF#8 } : CRsp).cdata = some 0xFF#8 ∧
    ({ cst := .ok, cflag := some false } : CRsp).cflag = some false := by decide

theorem witness_DecodeOfEncodeIsTheResponse :
    KRsp.wf (.conv 0 0) (sampleAnswer 0 0) = true ∧ KRsp.wf .rsvdK { kst := .illegal } = true ∧
    KRsp.wf (.conv3 0 0 0 0 0 0) ⟨.ok, some 0, some 0, some 0, some 0, some 0, some 0⟩ = true ∧
    PRsp.wf .qfullP { pst := .ok, pflag := some false } = true ∧ PRsp.wf (.push 0) { pst := .fail } = true ∧
    CRsp.wf .pop { cst := .ok, cdata := some 0 } = true ∧ CRsp.wf .pop { cst := .fail } = true := by decide

theorem witness_OnlyValidResponseFieldsHaveAValue :
    (∃ t, exec (.conv3 0 0 0 0 0 0) oneByte = .next t) ∧ (∃ t, exec .qfullP oneByte = .next t) ∧
    (∃ t, exec .pop oneByte = .next t) := ⟨⟨_, rfl⟩, ⟨_, rfl⟩, ⟨_, rfl⟩⟩

theorem witness_TraceOperandsAssembleLowByteFirst :
    ((-1 : Int) < 0 ∧ (TraceLine.kConv (-1)).wf = true) ∧ ((-32768 : Int) < 0 ∧ (TraceLine.kConv (-32768)).wf = true) ∧
    (TraceLine.kConvb 255 255).wf = true ∧ (TraceLine.kConv3 0 255 0 255 0 255).wf = true := by decide

theorem witness_NoOperationsAnswerOk :
    (0x0FFFFFFFFFFFF#50).extractLsb' 48 2 = 0#2 ∧ (0x0FF#11).extractLsb' 8 3 = 0#3 := by decide

theorem witness_ConvAnswersQuotientAndRemainder : (0x1FFFFFFFFFFFF#50).extractLsb' 48 2 = 1#2 := by decide

theorem witness_Conv3AnswersThreeConversions : (0x2FFFFFFFFFFFF#50).extractLsb' 48 2 = 2#2 := by decide

/-- No other pair than (0, -4903325) will do for -1, and that one does. -/
theorem witness_ConvDivisionTruncates : truncatingPair (signed16 0xFF#8 0xFF#8) 0 (-4903325) := by
  unfold truncatingPair
  decide

/-- An operand at each end of the 13-bit range, an operand and its negation, two operands in order. -/
theorem witness_ConvRangesAndIdentities :
    signed16 0x00#8 0xF0#8 = -4096 ∧ signed16 0xFF#8 0x0F#8 = 4095 ∧
    signed16 0x00#8 0x10#8 = - signed16 0x00#8 0xF0#8 ∧ signed16 0x00#8 0x80#8 < signed16 0xFF#8 0x7F#8 := by decide

theorem witness_ConvDependsOnItsSampleAlone :
    (0x10000000000CC#50).extractLsb' 48 2 = 1#2 ∧ (0x1FFFFFFFF00CC#50).extractLsb' 48 2 = 1#2 ∧
    (0x10000000000CC#50).extractLsb' 0 16 = (0x1FFFFFFFF00CC#50).extractLsb' 0 16 := by decide

/-- Full across the wrap, and one short of it; the word with every operand bit set. -/
theorem witness_PushStoresAtWrAndAdvancesIt :
    (0x1FF#11).extractLsb' 8 3 = 1#3 ∧ (queueAt [] 255 0 0 0).wr + 1 = (queueAt [] 255 0 0 0).rdv ∧
    (queueAt [] 254 0 0 0).wr + 1 ≠ (queueAt [] 254 0 0 0).rdv := by decide

/-- Room for one byte, and a POP on the other side in between. -/
theorem witness_QfullPAnswersAndFalseAllowsPush :
    (0x2FF#11).extractLsb' 8 3 = 2#3 ∧ RingInv almostFull ∧ almostFull.wr + 1 ≠ almostFull.rdv ∧
    (∀ e ∈ [Event.request (.c 1#3)], awayFrom .P e) ∧
    ∃ t, happenAll [.request (.c 1#3)] almostFull = .next t := by
  refine ⟨by decide, inv_almostFull, by decide, ?_, ?_⟩
  · intro e he
    rw [List.mem_singleton] at he
    subst he
    refine ⟨by decide, ?_⟩
    intro i h
    cases h
    decide
  · exact ⟨{ queueAt fullMem 254 1 0 254 with crsp := some { cst := .ok, cdata := some 0#8 } },
      eq_next (by decide +kernel)⟩

theorem witness_QemptyPAnswersAndTrueLasts :
    (0x3FF#11).extractLsb' 8 3 = 3#3 ∧ RingInv State.reset ∧ State.reset.rdv = State.reset.wr ∧
    (∀ e ∈ [Event.request (.c 1#3)], ∀ b, Event.asks e ≠ some (.push b)) ∧
    ∃ t, happenAll [.request (.c 1#3)] State.reset = .next t := by
  refine ⟨by decide, inv_reset, rfl, ?_, ⟨_, rfl⟩⟩
  intro e he b
  rw [List.mem_singleton] at he
  subst he
  intro h
  cases h

/-- A lag of 3 leaves room for 252 (95_test_vectors.md 2.7); none, after reset, for 255. -/
theorem witness_PushesFillTheQueueExactly :
    (RingInv (queueAt fullMem 3 3 0 3) ∧ (queueAt fullMem 3 3 0 3).outOfReset = true ∧
      (List.replicate 252 0#8).length + ringDist 0 3 = 255) ∧
    (RingInv State.reset ∧ State.reset.outOfReset = true ∧ State.reset.rd = State.reset.wr ∧
      (List.replicate 255 0#8).length + ringDist State.reset.rdv State.reset.rd = 255) := by
  refine ⟨⟨inv_fullMem _ _ _ _ (by decide) (by decide), rfl, ?_⟩, inv_reset, rfl, rfl, ?_⟩
  · rw [List.length_replicate]
    decide
  · rw [List.length_replicate]
    decide

theorem witness_PushDoesNotDisturbTheConsumer :
    RingInv oneByte ∧ (∃ t, exec (.push 0x42#8) oneByte = .next t) ∧ Instr.pop.port = .C ∧
    ∃ u, exec .pop oneByte = .next u := ⟨inv_oneByte, ⟨_, rfl⟩, rfl, ⟨_, rfl⟩⟩

theorem witness_PopLoadsAtRdAndAdvancesIt :
    State.reset.rd = State.reset.wrv ∧ oneByte.rd ≠ oneByte.wrv ∧ slotRead oneByte.mem oneByte.rd = some 0x41#8 := by
  decide

theorem witness_PopOfAnUnwrittenSlotStops :
    (queueAt [] 1 0 0 1).rd ≠ (queueAt [] 1 0 0 1).wrv ∧
    slotRead (queueAt [] 1 0 0 1).mem (queueAt [] 1 0 0 1).rd = none := by decide

theorem witness_PopReturnsTheOldestByte : RingInv oneByte ∧ oneByte.rd ≠ oneByte.wrv := ⟨inv_oneByte, by decide⟩

/-- Full, and a PUSH that fails in between. -/
theorem witness_QfullCAnswersAndTrueLasts :
    RingInv fullQueue ∧ fullQueue.wrv + 1 = fullQueue.rd ∧
    (∀ e ∈ [Event.request (.p 0x1FF#11)],
      e ≠ .rstLow ∧ Event.asks e ≠ some .pop ∧ Event.asks e ≠ some .flush) ∧
    ∃ t, happenAll [.request (.p 0x1FF#11)] fullQueue = .next t :=
  ⟨inv_fullQueue, by decide, by decide, { fullQueue with prsp := some { pst := .fail } },
    eq_next (by decide +kernel)⟩

theorem witness_QemptyCAnswersAndFalseAllowsPop :
    RingInv oneByte ∧ oneByte.rd ≠ oneByte.wrv ∧ (∀ e ∈ [Event.request (.p 0x142#11)], awayFrom .C e) ∧
    ∃ t, happenAll [.request (.p 0x142#11)] oneByte = .next t := by
  refine ⟨inv_oneByte, by decide, ?_, ⟨_, rfl⟩⟩
  intro e he
  rw [List.mem_singleton] at he
  subst he
  refine ⟨by decide, ?_⟩
  intro i h
  cases h
  decide

theorem witness_FlushDropsWhatTheConsumerSees : RingInv inFlight := inv_inFlight

theorem witness_BytesInFlightSurviveFlush : RingInv inFlight ∧ inFlight.rstN = true := ⟨inv_inFlight, rfl⟩

/-- Two visible bytes: the clause about `k` is met by 0 and 1. -/
theorem witness_PopsDrainExactlyTheReachableBytes :
    RingInv inFlight ∧ inFlight.outOfReset = true ∧ 1 < ringDist inFlight.rd inFlight.wrv :=
  ⟨inv_inFlight, rfl, by decide⟩

theorem witness_ConsumerDoesNotDisturbTheProducer :
    Instr.pop.port = .C ∧ (Instr.push 0x42#8).port = .P ∧ (∃ t, exec .pop oneByte = .next t) ∧
    ∃ u, exec (.push 0x42#8) oneByte = .next u := ⟨rfl, rfl, ⟨_, rfl⟩, ⟨_, rfl⟩⟩

theorem witness_ReservedCodesAnswerIllegal :
    (0x3FFFFFFFFFFFF#50).extractLsb' 48 2 = 3#2 ∧ (0x400#11).getLsbD 10 = true := by decide

/-- The whole way, and one too far. -/
theorem witness_SyncwAdvancesItsViewWithinReach :
    inFlight.rstN = true ∧ 1 ≤ ringDist inFlight.wrv inFlight.wr ∧ ringDist inFlight.wrv inFlight.wr < 2 := by decide

theorem witness_SyncrAdvancesItsViewWithinReach :
    onePopped.rstN = true ∧ 1 ≤ ringDist onePopped.rdv onePopped.rd ∧ ringDist onePopped.rdv onePopped.rd < 2 := by
  decide

/-- A run whose two views lag, in which each synchroniser steps once and then nothing more happens. -/
def fairState : Nat → State
  | 0 => queueAt [(0, 0x41#8), (1, 0x42#8)] 2 1 0 1
  | 1 => queueAt [(0, 0x41#8), (1, 0x42#8)] 2 1 0 2
  | _ => queueAt [(0, 0x41#8), (1, 0x42#8)] 2 1 1 2

def fairEvent : Nat → Event
  | 0 => .syncw 1
  | 1 => .syncr 1
  | _ => .syncw 0

theorem witness_FairSynchronisersCatchUp :
    (∀ k, happen (fairEvent k) (fairState k) = .next (fairState (k + 1))) ∧ (∀ k, fairEvent k ≠ .rstLow) ∧
    (∀ k b, Event.asks (fairEvent k) ≠ some (.push b)) ∧
    (∀ k, (∀ j ≥ k, (fairState j).wrv ≠ (fairState j).wr) → ∃ j ≥ k, ∃ n ≥ 1, fairEvent j = .syncw n) ∧
    (∀ k, Event.asks (fairEvent k) ≠ some .pop ∧ Event.asks (fairEvent k) ≠ some .flush) ∧
    (∀ k, (∀ j ≥ k, (fairState j).rdv ≠ (fairState j).rd) → ∃ j ≥ k, ∃ n ≥ 1, fairEvent j = .syncr n) := by
  refine ⟨?_, ?_, ?_, ?_, ?_, ?_⟩
  · intro k
    match k with
    | 0 => rfl
    | 1 => rfl
    | k + 2 => rfl
  · intro k
    match k with
    | 0 => decide
    | 1 => decide
    | k + 2 => exact (by decide : Event.syncw 0 ≠ .rstLow)
  · intro k b h
    match k with
    | 0 => cases h
    | 1 => cases h
    | k + 2 => cases h
  · intro k h
    exact absurd rfl (h (k + 2) (by omega))
  · intro k
    match k with
    | 0 => decide
    | 1 => decide
    | k + 2 => exact (by decide : Event.asks (.syncw 0) ≠ some .pop ∧ Event.asks (.syncw 0) ≠ some .flush)
  · intro k h
    exact absurd rfl (h (k + 2) (by omega))

/-- A circuit at work: one byte pushed and visible, its code still in all three registers. -/
def busyCircuit : Circuit :=
  { core := oneByte, wrg := 1, s1 := 1, s2 := 1, rdx := 0, rdg := 0, t1 := 0, t2 := 0 }

theorem witness_CircuitMeetsTheContract : CircuitInv busyCircuit :=
  ⟨inv_oneByte, rfl, by decide, by decide, by decide, by decide, by decide, by decide⟩

theorem witness_SettleSettles : inFlight.rstN = true := rfl

/-- The two causes of FAIL, and a cause of ILLEGAL. -/
theorem witness_OnlyTheListedCausesAnswerNotOk :
    (∃ t, exec (.push 0) (queueAt [] 255 0 0 0) = .next t ∧ statusOn .P t = some .fail) ∧
    (∃ t, exec .pop State.reset = .next t ∧ statusOn .C t = some .fail) ∧
    (∃ t, exec .rsvdK State.reset = .next t ∧ statusOn .K t = some .illegal) :=
  ⟨⟨_, rfl, rfl⟩, ⟨_, rfl, rfl⟩, ⟨_, rfl, rfl⟩⟩

theorem witness_FailingOperationsChangeNothing :
    ∃ t, exec .pop State.reset = .next t ∧ statusOn Instr.pop.port t ≠ some .ok := ⟨_, rfl, by decide⟩

theorem witness_StepServesTheFirstRequest :
    (State.reset.withFetchWord 8 1).schedule = [.request (.c 1#3)] ∧
    (State.reset.withFetchWord 8 1).outOfReset = true ∧ (decode (.c 1#3)).wf = true := by decide

theorem witness_StepTakesTheFirstEvent :
    State.reset.schedule = [] ∧ ({ State.reset with schedule := [.syncw 0] } : State).schedule = [.syncw 0] := by decide

end Sys2Proof.Tests
end

