-- ==== Sys2Proof/Proofs/State.lean ====
section
/-! The statements about the state of the queue (spec 10_state.md): the refinement to a list of bytes (R22), the
four status answers against the truths (R21), and the state after reset (R24). -/

namespace Sys2Proof.Machine

/-! ### Distances and the contents -/

/-- What the producer sees used is the lag and the contents. -/
theorem RingInv.dist_rdv_wr {s : State} (hi : RingInv s) :
    ringDist s.rdv s.wr = ringDist s.rdv s.rd + ringDist s.rd s.wr :=
  ringDist_trans hi.ring

/-- The visible part is a part of the contents. -/
theorem RingInv.dist_rd_wrv_le {s : State} (hi : RingInv s) : ringDist s.rd s.wrv ≤ ringDist s.rd s.wr := by
  have := hi.view
  omega

theorem dist_rd_wrv_ne_zero {s : State} (he : emptyC s = false) : ringDist s.rd s.wrv ≠ 0 := by
  rw [Ne, ← emptyC_iff, he]
  decide

/-- The queue is empty where `RD` has reached `WR`. -/
theorem contents_eq_nil_iff {s : State} : contents s = [] ↔ s.rd = s.wr := by
  rw [← List.length_eq_zero_iff, contents_length, ringDist_eq_zero]

/-! ### The status answers, read from the list of bytes (R20, R22) -/

namespace Represents

variable {s : State} {q : Queue}

theorem fullP_eq (hi : RingInv s) (hr : Represents s q) : fullP s = (q.bytes.length + q.lag == Config.qUsable) := by
  rw [Bool.eq_iff_iff, fullP_iff, hr.length_add_lag hi, beq_iff_eq, Config.qUsable]

theorem emptyP_eq (hi : RingInv s) (hr : Represents s q) : emptyP s = (q.bytes.length + q.lag == 0) := by
  rw [Bool.eq_iff_iff, emptyP_iff, hr.length_add_lag hi, beq_iff_eq]

theorem fullC_eq (hr : Represents s q) : fullC s = (q.seen == Config.qUsable) := by
  rw [Bool.eq_iff_iff, fullC_iff, hr.seen, beq_iff_eq, Config.qUsable]

theorem emptyC_eq (hr : Represents s q) : emptyC s = (q.seen == 0) := by
  rw [Bool.eq_iff_iff, emptyC_iff, hr.seen, beq_iff_eq]

/-! ### The list of bytes after each update of the state -/

/-- The two writes of a PUSH append its byte. -/
theorem storeByte (b : Byte) (hi : RingInv s) (hr : Represents s q) (hf : fullP s = false) :
    Represents (storeByte b s) { q with bytes := q.bytes ++ [b] } where
  bytes := by rw [contents_storeByte b hi hf, hr.bytes, List.map_append, List.map_singleton]
  seen := hr.seen
  lag := hr.lag

/-- Moving `RD` on within the visible part drops bytes from the front of `Q` and of `QV`, and `RDV` lags by as many
more. POP is the case `n` = 1, FLUSH the case of the whole visible part. -/
theorem setRd_advanceBy {n : Nat} (hi : RingInv s) (hr : Represents s q) (hn : n ≤ ringDist s.rd s.wrv) :
    Represents (setRd (advanceBy s.rd n) s) ⟨q.bytes.drop n, q.seen - n, q.lag + n⟩ where
  bytes := by
    rw [contents_setRd (hn.trans hi.dist_rd_wrv_le), hr.bytes, List.map_drop]
  seen := by
    rw [setRd_rd, setRd_wrv, ringDist_advanceBy_left hn, hr.seen]
  lag := by
    have hring : ringDist s.rdv s.rd + n ≤ 255 := by
      have := hi.ring
      have := hi.dist_rd_wrv_le
      omega
    rw [setRd_rdv, setRd_rd, ringDist_advanceBy_right hring, hr.lag]

/-- SYNCW lengthens the visible part, no further than the contents. -/
theorem setWrv_advanceBy {n : Nat} (hi : RingInv s) (hr : Represents s q) (hn : n ≤ ringDist s.wrv s.wr) :
    Represents (setWrv (advanceBy s.wrv n) s) { q with seen := q.seen + n } where
  bytes := hr.bytes
  seen := by
    have hring : ringDist s.rd s.wrv + n ≤ 255 := by
      have := hi.view
      have := ringDist_le s.rd s.wr
      omega
    rw [setWrv_rd, setWrv_wrv, ringDist_advanceBy_right hring, hr.seen]
  lag := hr.lag

/-- SYNCR lowers the lag. -/
theorem setRdv_advanceBy {n : Nat} (hr : Represents s q) (hn : n ≤ ringDist s.rdv s.rd) :
    Represents (setRdv (advanceBy s.rdv n) s) { q with lag := q.lag - n } where
  bytes := hr.bytes
  seen := hr.seen
  lag := by rw [setRdv_rdv, setRdv_rd, ringDist_advanceBy_left hn, hr.lag]

/-- A state after reset stands for the empty queue (R24). -/
theorem assertReset (s : State) : Represents (assertReset s) ⟨[], 0, 0⟩ where
  bytes := contents_eq_nil_iff.mpr rfl
  seen := (ringDist_self 0).symm
  lag := (ringDist_self 0).symm

/-- An answer on a port leaves the list of bytes alone. -/
theorem respondK (r : KRsp) (hr : Represents s q) : Represents (respondK r s) q :=
  hr.congr (s := s) ⟨rfl, rfl, rfl, rfl, rfl⟩

theorem respondP (r : PRsp) (hr : Represents s q) : Represents (respondP r s) q :=
  hr.congr (s := s) ⟨rfl, rfl, rfl, rfl, rfl⟩

theorem respondC (r : CRsp) (hr : Represents s q) : Represents (respondC r s) q :=
  hr.congr (s := s) ⟨rfl, rfl, rfl, rfl, rfl⟩

/-- Where the consumer sees a byte, the slot at `RD` holds the first byte of the list. -/
theorem bytes_eq_cons {b : Byte} (hi : RingInv s) (hr : Represents s q) (he : emptyC s = false)
    (hb : slotRead s.mem s.rd = some b) : q.bytes = b :: q.bytes.drop 1 := by
  have hpos : 0 < ringDist s.rd s.wr := by
    have := dist_rd_wrv_ne_zero he
    have := hi.dist_rd_wrv_le
    omega
  have hhead : (contents s)[0]? = some (some b) := by
    rw [contents_getElem? hpos, advanceBy_zero, hb]
  rw [hr.bytes] at hhead
  cases hq : q.bytes with
  | nil => simp [hq] at hhead
  | cons b' rest =>
    obtain rfl : b' = b := by simpa [hq] using hhead
    rfl

end Represents

/-! ### The operations of the list of bytes, one equation for each outcome -/

namespace Queue

theorem exec_push_full {q : Queue} (b : Byte) (h : q.bytes.length + q.lag = Config.qUsable) :
    exec (.push b) q = (q, some (.onP { pst := .fail })) :=
  if_pos h

theorem exec_push_room {q : Queue} (b : Byte) (h : q.bytes.length + q.lag ≠ Config.qUsable) :
    exec (.push b) q = ({ q with bytes := q.bytes ++ [b] }, some (.onP { pst := .ok })) :=
  if_neg h

theorem exec_pop_unseen {q : Queue} (h : q.seen = 0) : exec .pop q = (q, some (.onC { cst := .fail })) := by
  obtain ⟨bytes, seen, lag⟩ := q
  obtain rfl : seen = 0 := h
  cases bytes with
  | nil => rfl
  | cons b rest => rfl

theorem exec_pop_seen {q : Queue} {b : Byte} {rest : List Byte} (hb : q.bytes = b :: rest) (h : q.seen ≠ 0) :
    exec .pop q = (⟨rest, q.seen - 1, q.lag + 1⟩, some (.onC { cst := .ok, cdata := some b })) := by
  obtain ⟨bytes, seen, lag⟩ := q
  obtain rfl : bytes = b :: rest := hb
  obtain ⟨n, rfl⟩ := Nat.exists_eq_succ_of_ne_zero h
  rfl

end Queue

/-! ### The block and the list of bytes go together (R22) -/

/-- The state `t` after operation `i` stands for the list of bytes after it, and its answer on a queue port is the
list's. -/
structure Refines (i : Instr) (q : Queue) (t : State) : Prop where
  represents : Represents t (Queue.exec i q).1
  answer : answerOn i.port t = (Queue.exec i q).2

theorem Refines.of_exec_eq {i : Instr} {q q' : Queue} {t : State} {a : Option Answer} (hq : Queue.exec i q = (q', a))
    (hr : Represents t q') (ha : answerOn i.port t = a) : Refines i q t where
  represents := by rw [hq]; exact hr
  answer := by rw [hq, ha]

section
variable {s t : State} {q : Queue}

theorem execPush_refines {b : Byte} (hi : RingInv s) (hr : Represents s q) (h : execPush b s = .next t) :
    Refines (.push b) q t := by
  have hfull := (hr.fullP_eq hi).symm
  rcases execPush_cases h with ⟨hf, rfl⟩ | ⟨hf, rfl⟩
  · exact .of_exec_eq (Queue.exec_push_full b (beq_iff_eq.mp (hfull.trans hf))) (hr.respondP _) rfl
  · exact .of_exec_eq (Queue.exec_push_room b (beq_eq_false_iff_ne.mp (hfull.trans hf)))
      ((hr.storeByte b hi hf).respondP _) rfl

theorem execPop_refines (hi : RingInv s) (hr : Represents s q) (h : execPop s = .next t) : Refines .pop q t := by
  have hempty := hr.emptyC_eq.symm
  rcases execPop_cases h with ⟨he, rfl⟩ | ⟨he, b, hb, rfl⟩
  · exact .of_exec_eq (Queue.exec_pop_unseen (beq_iff_eq.mp (hempty.trans he))) (hr.respondC _) rfl
  · have hpop := hr.setRd_advanceBy hi (Nat.one_le_iff_ne_zero.mpr (dist_rd_wrv_ne_zero he))
    exact .of_exec_eq
      (Queue.exec_pop_seen (hr.bytes_eq_cons hi he hb) (beq_eq_false_iff_ne.mp (hempty.trans he)))
      (hpop.respondC _) rfl

theorem execFlush_refines (hi : RingInv s) (hr : Represents s q) (h : execFlush s = .next t) : Refines .flush q t := by
  have hdrop := hr.setRd_advanceBy hi le_rfl
  rw [advanceBy_ringDist, ← hr.seen, Nat.sub_self] at hdrop
  cases h
  exact ⟨hdrop.respondC _, rfl⟩

/-- Every operation. Apart from PUSH, POP and FLUSH it changes neither the architectural items nor the list of bytes,
and only its answer is to be compared. -/
theorem exec_refines {i : Instr} (hi : RingInv s) (hr : Represents s q) (h : exec i s = .next t) : Refines i q t := by
  cases i with
  | push b => exact execPush_refines hi hr h
  | pop => exact execPop_refines hi hr h
  | flush => exact execFlush_refines hi hr h
  | qfullP => cases h; exact ⟨hr.respondP _, by rw [Queue.exec, ← hr.fullP_eq hi]; rfl⟩
  | qemptyP => cases h; exact ⟨hr.respondP _, by rw [Queue.exec, ← hr.emptyP_eq hi]; rfl⟩
  | qfullC => cases h; exact ⟨hr.respondC _, by rw [Queue.exec, ← hr.fullC_eq]; rfl⟩
  | qemptyC => cases h; exact ⟨hr.respondC _, by rw [Queue.exec, ← hr.emptyC_eq]; rfl⟩
  | nopK | conv | conv3 | rsvdK => cases h; exact ⟨hr.respondK _, rfl⟩
  | nopP | rsvdP => cases h; exact ⟨hr.respondP _, rfl⟩
  | nopC | rsvdC5 | rsvdC6 | rsvdC7 => cases h; exact ⟨hr.respondC _, rfl⟩

/-- Every event takes the list of bytes along. -/
theorem happen_represents {e : Event} (hi : RingInv s) (hr : Represents s q) (h : happen e s = .next t) :
    Represents t (Queue.happen e q) := by
  rcases happen_cases h with ⟨r, rfl, _, hx⟩ | ⟨n, rfl, _, hn, rfl⟩ | ⟨n, rfl, _, hn, rfl⟩ | ⟨rfl, rfl⟩ | ⟨rfl, rfl⟩ |
    ⟨p, rfl, _, rfl⟩
  · exact (exec_refines hi hr hx).represents
  · exact hr.setWrv_advanceBy hi hn
  · exact hr.setRdv_advanceBy hn
  · exact Represents.assertReset s
  · exact hr.congr (s := s) ⟨rfl, rfl, rfl, rfl, rfl⟩
  · exact hr.congr ⟨domainUp_mem p s, domainUp_wr p s, domainUp_rd p s, domainUp_rdv p s, domainUp_wrv p s⟩

/-- An event that asks for an operation happens only as the meaning of that operation. -/
theorem exec_of_happen_asks {e : Event} {i : Instr} (h : happen e s = .next t) (ha : Event.asks e = some i) :
    exec i s = .next t := by
  rcases happen_cases h with ⟨r, rfl, _, hx⟩ | ⟨n, rfl, _⟩ | ⟨n, rfl, _⟩ | ⟨rfl, _⟩ | ⟨rfl, _⟩ | ⟨p, rfl, _⟩
  · obtain rfl : decode r = i := Option.some.inj ha
    exact hx
  all_goals cases ha

end

/-- Settles O11: one refinement lemma per operation, and what each event does to the list of bytes. -/
theorem blockRefinesTheListOfBytes : Obligations.BlockRefinesTheListOfBytes := by
  intro s t q e hi hr h
  exact ⟨happen_represents hi hr h, fun i ha => (exec_refines hi hr (exec_of_happen_asks h ha)).answer⟩

/-! ### The status answers against the truths (R21) -/

section
variable {s : State}

theorem fullTrue_eq_false (hi : RingInv s) (h : fullP s = false) : fullTrue s = false := by
  rw [← Bool.not_eq_true, fullP_iff, hi.dist_rdv_wr] at h
  rw [← Bool.not_eq_true, fullTrue_iff]
  have := hi.ring
  omega

theorem emptyTrue_eq_false (hi : RingInv s) (h : emptyC s = false) : emptyTrue s = false := by
  rw [← Bool.not_eq_true, emptyTrue_iff]
  have := dist_rd_wrv_ne_zero h
  have := hi.dist_rd_wrv_le
  omega

theorem emptyTrue_of_emptyP (hi : RingInv s) (h : emptyP s = true) : emptyTrue s = true := by
  rw [emptyP_iff, hi.dist_rdv_wr] at h
  rw [emptyTrue_iff]
  omega

theorem fullTrue_of_fullC (hi : RingInv s) (h : fullC s = true) : fullTrue s = true := by
  rw [fullC_iff] at h
  rw [fullTrue_iff]
  have := hi.dist_rd_wrv_le
  have := ringDist_le s.rd s.wr
  omega

theorem answers_exact_of_settled (h : settled s) :
    fullP s = fullTrue s ∧ fullC s = fullTrue s ∧ emptyP s = emptyTrue s ∧ emptyC s = emptyTrue s := by
  obtain ⟨hwrv, hrdv⟩ := h
  refine ⟨?_, ?_, ?_, ?_⟩
  · rw [fullP, fullTrue, hrdv]
  · rw [fullC, fullTrue, hwrv]
  · rw [emptyP, emptyTrue, hrdv]
  · rw [emptyC, emptyTrue, hwrv]

end

/-- The queue is empty, but `RDV` lags behind `RD` by 255: the producer still sees a full queue. -/
def emptySeenFull : State := { State.reset with wr := 255, rd := 255, wrv := 255 }

/-- The queue holds one byte that the consumer does not see yet. -/
def oneByteUnseen : State := { State.reset with mem := [(0, 0x41#8)], wr := 1 }

theorem inv_emptySeenFull : RingInv emptySeenFull := ⟨by decide, by decide, by decide, by decide⟩

theorem inv_oneByteUnseen : RingInv oneByteUnseen := ⟨by decide, by decide, by decide, by decide⟩

/-- Settles O10: each certain answer from the distances under the invariant, and a state for each stale one. -/
theorem certainAnswersAreTrue : Obligations.CertainAnswersAreTrue := by
  refine ⟨fun s hi => ?_, ?_, ?_⟩
  · exact ⟨fullTrue_eq_false hi, emptyTrue_eq_false hi, emptyTrue_of_emptyP hi, fullTrue_of_fullC hi,
      answers_exact_of_settled⟩
  · exact ⟨emptySeenFull, inv_emptySeenFull, by decide, by decide⟩
  · exact ⟨oneByteUnseen, inv_oneByteUnseen, by decide, by decide⟩

/-! ### The state after reset (R24) -/

/-- Settles O1: the memory of the reset state is empty, and the rest is its four zero indices evaluated. -/
theorem resetLeavesAnEmptySettledQueue : Obligations.ResetLeavesAnEmptySettledQueue := by
  have hslots : ∀ a, slotRead State.reset.mem a = none := slotRead_nil
  have hsettled : settled State.reset := ⟨rfl, rfl⟩
  have hcontents : contents State.reset = [] := contents_eq_nil_iff.mpr rfl
  exact ⟨rfl, rfl, rfl, rfl, hslots, hsettled, hcontents, by decide, by decide, by decide, by decide⟩

end Sys2Proof.Machine
end

/-! The order of the bytes (spec 20_memory.md): every event keeps the invariant (R19) and the schedule behind it, the
bytes of one event are balanced between the list before it and the list after it, and so are those of a run (R35). -/

namespace Sys2Proof.Machine

/-! ### Every event keeps the invariant (R19) -/

/-- Line 4 of R19, read from the contents. -/
theorem written_iff {s : State} :
    (∀ i < ringDist s.rd s.wr, (slotRead s.mem (advanceBy s.rd i)).isSome) ↔ ∀ x ∈ contents s, x.isSome := by
  simp [contents]

namespace RingInv

variable {s t : State}

theorem isSome_of_mem_contents (hi : RingInv s) : ∀ x ∈ contents s, x.isSome := written_iff.mp hi.written

theorem reset : RingInv State.reset := ⟨Memory.wf_nil, by decide, by decide, by decide⟩

/-- The two writes of a PUSH that is not refused. -/
theorem storeByte (b : Byte) (hi : RingInv s) (hf : fullP s = false) : RingInv (storeByte b s) := by
  have hroom : ringDist s.rdv s.wr ≠ 255 := fun e => by simp [(fullP_iff s).mpr e] at hf
  have hring := hi.ring
  have hused := hi.dist_rdv_wr
  have hview := hi.view
  have hwr : ringDist s.rd (advance s.wr) = ringDist s.rd s.wr + 1 := ringDist_advanceBy_right (n := 1) (by omega)
  have hwrv : ringDist s.wrv (advance s.wr) = ringDist s.wrv s.wr + 1 := ringDist_advanceBy_right (n := 1) (by omega)
  refine ⟨slotWrite_wf s.wr b hi.memWf, ?_, ?_, written_iff.mpr ?_⟩
  · simp only [storeByte_rdv, storeByte_rd, storeByte_wr, hwr]
    omega
  · simp only [storeByte_rd, storeByte_wrv, storeByte_wr, hwr, hwrv]
    omega
  · rw [contents_storeByte b hi hf]
    intro x hx
    rcases List.mem_append.mp hx with hold | hnew
    · exact hi.isSome_of_mem_contents x hold
    · rw [List.mem_singleton.mp hnew, Option.isSome_some]

/-- `RD` moves on within the visible part. -/
theorem setRd_advanceBy {n : Nat} (hi : RingInv s) (hn : n ≤ ringDist s.rd s.wrv) :
    RingInv (setRd (advanceBy s.rd n) s) := by
  have hring := hi.ring
  have hview := hi.view
  have hle := hn.trans hi.dist_rd_wrv_le
  refine ⟨hi.memWf, ?_, ?_, written_iff.mpr ?_⟩
  · rw [setRd_rdv, setRd_rd, setRd_wr, ringDist_advanceBy_left hle, ringDist_advanceBy_right (by omega)]
    omega
  · rw [setRd_rd, setRd_wrv, setRd_wr, ringDist_advanceBy_left hle, ringDist_advanceBy_left hn]
    omega
  · rw [contents_setRd hle]
    exact fun x hx => hi.isSome_of_mem_contents x (List.mem_of_mem_drop hx)

/-- SYNCW within reach. -/
theorem setWrv_advanceBy {n : Nat} (hi : RingInv s) (hn : n ≤ ringDist s.wrv s.wr) :
    RingInv (setWrv (advanceBy s.wrv n) s) where
  memWf := hi.memWf
  ring := hi.ring
  view := by
    have hview := hi.view
    have hle := ringDist_le s.rd s.wr
    rw [setWrv_rd, setWrv_wrv, setWrv_wr, ringDist_advanceBy_left hn, ringDist_advanceBy_right (by omega)]
    omega
  written := hi.written

/-- SYNCR within reach. -/
theorem setRdv_advanceBy {n : Nat} (hi : RingInv s) (hn : n ≤ ringDist s.rdv s.rd) :
    RingInv (setRdv (advanceBy s.rdv n) s) where
  memWf := hi.memWf
  ring := by
    have hring := hi.ring
    rw [setRdv_rdv, setRdv_rd, setRdv_wr, ringDist_advanceBy_left hn]
    omega
  view := hi.view
  written := hi.written

theorem happen {e : Event} (hi : RingInv s) (h : happen e s = .next t) : RingInv t := by
  rcases happen_arch h with ⟨b, _, hf, ha⟩ | ⟨_, he, _, ha⟩ | ⟨_, ha⟩ | ⟨n, _, hn, ha⟩ | ⟨n, _, hn, ha⟩ | ⟨_, ha⟩ | ha
  · exact (hi.storeByte b hf).congr ha
  · exact (hi.setRd_advanceBy (Nat.one_le_iff_ne_zero.mpr (dist_rd_wrv_ne_zero he))).congr ha
  · have hflush := hi.setRd_advanceBy le_rfl
    rw [advanceBy_ringDist] at hflush
    exact hflush.congr ha
  · exact (hi.setWrv_advanceBy hn).congr ha
  · exact (hi.setRdv_advanceBy hn).congr ha
  · exact RingInv.reset.congr ha
  · exact hi.congr ha

end RingInv

/-! ### No event touches the schedule behind it -/

theorem exec_schedule {i : Instr} {s t : State} (h : exec i s = .next t) : t.schedule = s.schedule := by
  rcases exec_cases h with ⟨_, _, _, rfl⟩ | ⟨_, _, _, _, rfl⟩ | ⟨_, rfl⟩ | ⟨_, _, _, rfl⟩ | ⟨_, _, _, rfl⟩ | ⟨_, _, _, rfl⟩
  all_goals rfl

theorem happen_schedule {e : Event} {s t : State} (h : happen e s = .next t) : t.schedule = s.schedule := by
  rcases happen_cases h with ⟨r, _, _, hx⟩ | ⟨n, _, _, _, rfl⟩ | ⟨n, _, _, _, rfl⟩ | ⟨_, rfl⟩ | ⟨_, rfl⟩ | ⟨p, _, _, rfl⟩
  · exact exec_schedule hx
  · rfl
  · rfl
  · rfl
  · rfl
  · exact domainUp_schedule p s

/-! ### The terms of a history -/

@[simp] theorem flushes_nil : flushes [] = 0 := rfl

@[simp] theorem flushes_pushed (b : Byte) (h : List ByteEvent) : flushes (.pushed b :: h) = flushes h :=
  List.count_cons_of_ne (by simp)

@[simp] theorem flushes_popped (b : Byte) (h : List ByteEvent) : flushes (.popped b :: h) = flushes h :=
  List.count_cons_of_ne (by simp)

@[simp] theorem flushes_flushed (h : List ByteEvent) : flushes (.flushed :: h) = flushes h + 1 := List.count_cons_self

theorem flushes_append (h g : List ByteEvent) : flushes (h ++ g) = flushes h + flushes g := List.count_append

theorem pushedBytes_append (h g : List ByteEvent) : pushedBytes (h ++ g) = pushedBytes h ++ pushedBytes g :=
  List.filterMap_append

/-- With one run of dropped bytes for each FLUSH of the first part, what left the queue can be cut there. -/
theorem leftQueue_append {h : List ByteEvent} {dropped : List (List Byte)} (hlen : dropped.length = flushes h)
    (g : List ByteEvent) (more : List (List Byte)) :
    leftQueue (h ++ g) (dropped ++ more) = leftQueue h dropped ++ leftQueue g more := by
  induction h, dropped using leftQueue.induct with
  | case1 dropped =>
    obtain rfl : dropped = [] := List.length_eq_zero_iff.mp hlen
    rfl
  | case2 b h dropped ih => exact ih (by simpa using hlen)
  | case3 b h dropped ih => exact congrArg (b :: ·) (ih (by simpa using hlen))
  | case4 h _ => simp at hlen
  | case5 h d dropped ih =>
    have htail : leftQueue (h ++ g) (dropped ++ more) = leftQueue h dropped ++ leftQueue g more := ih (by simpa using hlen)
    simp only [List.cons_append, leftQueue, htail, List.append_assoc]

/-- Where nothing is flushed, what left the queue is what was popped. -/
theorem leftQueue_eq_poppedBytes {h : List ByteEvent} (hf : flushes h = 0) : leftQueue h [] = poppedBytes h := by
  induction h with
  | nil => rfl
  | cons e h ih =>
    cases e with
    | pushed b => exact ih (by simpa using hf)
    | popped b => exact congrArg (b :: ·) (ih (by simpa using hf))
    | flushed => simp at hf

/-! ### The balance of the bytes -/

/-- The bytes before a history and those pushed in it are the bytes that left in it and those after it, in order, for
some choice of one dropped run for each FLUSH. -/
def Balanced (before : List Byte) (h : List ByteEvent) (after : List Byte) : Prop :=
  ∃ dropped : List (List Byte), dropped.length = flushes h ∧ before ++ pushedBytes h = leftQueue h dropped ++ after

namespace Balanced

theorem refl (bytes : List Byte) : Balanced bytes [] bytes :=
  ⟨[], rfl, List.append_nil bytes⟩

theorem pushed (b : Byte) (bytes : List Byte) : Balanced bytes [.pushed b] (bytes ++ [b]) :=
  ⟨[], rfl, rfl⟩

theorem popped (b : Byte) (rest : List Byte) : Balanced (b :: rest) [.popped b] rest :=
  ⟨[], rfl, List.append_nil (b :: rest)⟩

/-- A FLUSH drops one contiguous run from the front. -/
theorem flushed (n : Nat) (bytes : List Byte) : Balanced bytes [.flushed] (bytes.drop n) :=
  ⟨[bytes.take n], rfl, by simp [pushedBytes, leftQueue]⟩

theorem trans {h g : List ByteEvent} {a b c : List Byte} (hab : Balanced a h b) (hbc : Balanced b g c) :
    Balanced a (h ++ g) c := by
  obtain ⟨dropped, hlen, heq⟩ := hab
  obtain ⟨more, hlen', heq'⟩ := hbc
  refine ⟨dropped ++ more, by rw [List.length_append, flushes_append, hlen, hlen'], ?_⟩
  calc a ++ pushedBytes (h ++ g)
      = (a ++ pushedBytes h) ++ pushedBytes g := by rw [pushedBytes_append, List.append_assoc]
    _ = leftQueue h dropped ++ (b ++ pushedBytes g) := by rw [heq, List.append_assoc]
    _ = leftQueue h dropped ++ leftQueue g more ++ c := by rw [heq', List.append_assoc]
    _ = leftQueue (h ++ g) (dropped ++ more) ++ c := by rw [leftQueue_append hlen]

/-- Without a FLUSH, and from nothing, the bytes popped are the first of the bytes pushed. -/
theorem poppedBytes_isPrefix_pushedBytes {h : List ByteEvent} {after : List Byte} (hb : Balanced [] h after) (hf : flushes h = 0) :
    poppedBytes h <+: pushedBytes h := by
  obtain ⟨dropped, hlen, heq⟩ := hb
  obtain rfl : dropped = [] := List.length_eq_zero_iff.mp (hlen.trans hf)
  exact ⟨after, by rw [← leftQueue_eq_poppedBytes hf, ← heq, List.nil_append]⟩

end Balanced

/-! ### The bytes of one event are balanced -/

section
variable {r : Request} {s t : State} {q : Queue}

theorem shown_push {b : Byte} (hd : decode r = .push b) :
    shown (.request r) t = if statusOn .P t = some .ok then [.pushed b] else [] := by
  simp only [shown, hd]

theorem shown_pop (hd : decode r = .pop) :
    shown (.request r) t = ((t.crsp.bind CRsp.cdata).map ByteEvent.popped).toList := by
  simp only [shown, hd]

theorem shown_flush (hd : decode r = .flush) : shown (.request r) t = [.flushed] := by
  simp only [shown, hd]

/-- The answer on port P, as a response of the state. -/
theorem prsp_of_answerOn {p : PRsp} (h : answerOn .P t = some (.onP p)) : t.prsp = some p := by
  simpa [answerOn] using h

/-- The answer on port C, as a response of the state. -/
theorem crsp_of_answerOn {c : CRsp} (h : answerOn .C t = some (.onC c)) : t.crsp = some c := by
  simpa [answerOn] using h

/-- PUSH shows its byte exactly when the list of bytes takes it in. -/
theorem balanced_push {b : Byte} (hd : decode r = .push b) (hx : Refines (.push b) q t) :
    Balanced q.bytes (shown (.request r) t) (Queue.exec (.push b) q).1.bytes := by
  have hans := hx.answer
  rw [shown_push hd]
  by_cases hfull : q.bytes.length + q.lag = Config.qUsable
  · rw [Queue.exec_push_full b hfull] at hans ⊢
    rw [if_neg (by simp [statusOn, prsp_of_answerOn hans])]
    exact .refl q.bytes
  · rw [Queue.exec_push_room b hfull] at hans ⊢
    rw [if_pos (by simp [statusOn, prsp_of_answerOn hans])]
    exact .pushed b q.bytes

/-- POP shows the byte that the list of bytes loses. -/
theorem balanced_pop (hd : decode r = .pop) (hx : Refines .pop q t) :
    Balanced q.bytes (shown (.request r) t) (Queue.exec .pop q).1.bytes := by
  have hans := hx.answer
  rw [shown_pop hd]
  obtain ⟨bytes, seen, lag⟩ := q
  cases seen with
  | zero =>
    rw [Queue.exec_pop_unseen rfl] at hans ⊢
    rw [crsp_of_answerOn hans]
    exact .refl bytes
  | succ n =>
    cases bytes with
    | nil => rw [crsp_of_answerOn hans]; exact .refl []
    | cons b rest => rw [crsp_of_answerOn hans]; exact .popped b rest

theorem balanced_request (hx : Refines (decode r) q t) :
    Balanced q.bytes (shown (.request r) t) (Queue.exec (decode r) q).1.bytes := by
  cases hd : decode r with
  | push b => exact balanced_push hd (hd ▸ hx)
  | pop => exact balanced_pop hd (hd ▸ hx)
  | flush => rw [shown_flush hd]; exact .flushed q.seen q.bytes
  | nopK | conv | conv3 | rsvdK | nopP | qfullP | qemptyP | rsvdP | nopC | qfullC | qemptyC | rsvdC5 | rsvdC6 | rsvdC7 =>
    simp only [shown, hd]
    exact .refl q.bytes

/-- Only a reset loses bytes that nothing shows. -/
theorem balanced_event {e : Event} (hi : RingInv s) (hr : Represents s q) (h : happen e s = .next t) (he : e ≠ .rstLow) :
    Balanced q.bytes (shown e t) (Queue.happen e q).bytes := by
  cases e with
  | request r => exact balanced_request (exec_refines hi hr (exec_of_happen_asks h rfl))
  | rstLow => exact absurd rfl he
  | syncw | syncr | rstHigh | leaveReset => exact .refl q.bytes

end

/-! ### The bytes of a run are balanced -/

theorem history_nil {s : State} (hs : s.schedule = []) (k : Nat) : history k s = [] := by
  cases k with
  | zero => rfl
  | succ k => simp only [history, hs]

theorem history_cons {s u : State} {e : Event} {rest : List Event} (hs : s.schedule = e :: rest) (hu : step s = .next u)
    (k : Nat) : history (k + 1) s = shown e u ++ history k u := by
  simp only [history, hs, hu]

/-- With the first event taken, what is left to happen holds no reset either. -/
theorem noReset_of_cons {s u : State} {e : Event} {rest : List Event} (hn : noReset s) (hs : s.schedule = e :: rest)
    (hu : happen e (setSchedule rest s) = .next u) : e ≠ .rstLow ∧ noReset u := by
  unfold noReset at hn ⊢
  rw [hs, List.mem_cons, not_or] at hn
  obtain ⟨he, hrest⟩ := hn
  rw [happen_schedule hu, setSchedule_schedule]
  exact ⟨Ne.symm he, hrest⟩

/-- Along a run without a reset the block goes on standing for a list of bytes, and the bytes are balanced. -/
theorem run_balanced {k : Nat} {s t : State} {q : Queue} (hi : RingInv s) (hr : Represents s q) (hn : noReset s)
    (h : Host.Core.run Sys2Proof.core k s = .next t) :
    ∃ q', Represents t q' ∧ Balanced q.bytes (history k s) q'.bytes := by
  induction k generalizing s q with
  | zero =>
    cases h
    exact ⟨q, hr, .refl q.bytes⟩
  | succ k ih =>
    obtain ⟨u, hu, hrun⟩ := run_cases h
    cases hs : s.schedule with
    | nil =>
      obtain rfl : s = u := by
        rw [step_nil hs] at hu
        exact Host.Outcome.next.inj hu
      obtain ⟨q', hr', hbal⟩ := ih hi hr hn hrun
      rw [history_nil hs] at hbal ⊢
      exact ⟨q', hr', hbal⟩
    | cons e rest =>
      have he : happen e (setSchedule rest s) = .next u := (step_cons hs).symm.trans hu
      have hi₁ : RingInv (setSchedule rest s) := hi.congr (s := s) ⟨rfl, rfl, rfl, rfl, rfl⟩
      have hr₁ : Represents (setSchedule rest s) q := hr.congr (s := s) ⟨rfl, rfl, rfl, rfl, rfl⟩
      obtain ⟨hne, hn'⟩ := noReset_of_cons hn hs he
      obtain ⟨q', hr', hbal⟩ := ih (hi₁.happen he) (happen_represents hi₁ hr₁ he) hn' hrun
      rw [history_cons hs hu]
      exact ⟨q', hr', (balanced_event hi₁ hr₁ he hne).trans hbal⟩

/-- Settles O13: the balance of a run, from the empty list of bytes. -/
theorem bytesComeOutInTheOrderPushed : Obligations.BytesComeOutInTheOrderPushed := by
  intro s t k hi hempty hn h
  have hr : Represents s ⟨[], ringDist s.rd s.wrv, ringDist s.rdv s.rd⟩ := ⟨hempty, rfl, rfl⟩
  obtain ⟨q', hr', hbal⟩ := run_balanced hi hr hn h
  refine ⟨?_, hbal.poppedBytes_isPrefix_pushedBytes⟩
  obtain ⟨dropped, hlen, heq⟩ := hbal
  refine ⟨dropped, hlen, ?_⟩
  rw [hr'.bytes, ← List.map_append, ← heq, List.nil_append]

end Sys2Proof.Machine

/-! The encodings (spec 30_encoding.md): exactly one row of the opcode map covers each request word, and it is the row
of the decoded operation (R50); CONV3 decodes to its six bytes and answers what three CONVs answer (R48, R68). -/

namespace Sys2Proof

/-! ### The rows of the opcode map exclude each other (R50) -/

namespace OpcodeRow

/-- A row covers the requests of its port whose masked word is its pattern. -/
theorem covers_iff {row : OpcodeRow} {r : Request} :
    row.covers r = true ↔ row.port = r.port ∧ r.toNat &&& row.mask = row.pattern := by
  simp [covers]

/-- The rows of two formats, or two rows whose patterns differ on a bit that both masks keep. -/
def Excludes (a b : OpcodeRow) : Prop :=
  a.port ≠ b.port ∨ a.pattern &&& b.mask ≠ b.pattern &&& a.mask

/-- A request that two rows cover has one port, and its word shows both patterns on the bits both masks keep. -/
theorem Excludes.not_covers {a b : OpcodeRow} {r : Request} (h : a.Excludes b) (ha : a.covers r = true) :
    ¬ b.covers r = true := by
  intro hb
  obtain ⟨hpa, hwa⟩ := covers_iff.mp ha
  obtain ⟨hpb, hwb⟩ := covers_iff.mp hb
  rcases h with hport | hbits
  · exact hport (hpa.trans hpb.symm)
  · apply hbits
    rw [← hwa, ← hwb, Nat.and_right_comm]

end OpcodeRow

theorem opcodeMap_excludes : ∀ a ∈ opcodeMap, ∀ b ∈ opcodeMap, a.Excludes b ∨ a = b := by
  unfold OpcodeRow.Excludes
  decide

/-- Within one format the patterns are disjoint (R50). -/
theorem eq_of_covers {a b : OpcodeRow} {r : Request} (ha : a ∈ opcodeMap) (hb : b ∈ opcodeMap)
    (hca : a.covers r = true) (hcb : b.covers r = true) : a = b :=
  (opcodeMap_excludes a ha b hb).resolve_left fun h => h.not_covers hca hcb

/-! ### The row of the decoded operation covers the word (R41 to R43, R50) -/

/-- A mask of `k` ones at bit `s` keeps the field of those bits. -/
theorem toNat_and_fieldMask {n : Nat} (w : BitVec n) (s k : Nat) :
    w.toNat &&& ((2 ^ k - 1) <<< s) = (w.extractLsb' s k).toNat <<< s := by
  apply Nat.eq_of_testBit_eq
  intro i
  simp only [Nat.testBit_and, Nat.testBit_shiftLeft, Nat.testBit_two_pow_sub_one, BitVec.extractLsb'_toNat,
    Nat.testBit_mod_two_pow, Nat.testBit_shiftRight]
  rcases Nat.lt_or_ge i s with hlt | hge
  · simp [Nat.not_le.mpr hlt]
  · simp [hge, Bool.and_comm]

/-- A row of port K whose mask is that of one field covers the words with the row's code in that field. -/
theorem covers_k {w : BitVec Config.kreqW} {s k : Nat} {c : BitVec k} (h : w.extractLsb' s k = c) (name : String) :
    OpcodeRow.covers ⟨name, .K, c.toNat <<< s, (2 ^ k - 1) <<< s⟩ (.k w) = true :=
  OpcodeRow.covers_iff.mpr ⟨rfl, h ▸ toNat_and_fieldMask w s k⟩

/-- The same for a row of port P. -/
theorem covers_p {w : BitVec Config.preqW} {s k : Nat} {c : BitVec k} (h : w.extractLsb' s k = c) (name : String) :
    OpcodeRow.covers ⟨name, .P, c.toNat <<< s, (2 ^ k - 1) <<< s⟩ (.p w) = true :=
  OpcodeRow.covers_iff.mpr ⟨rfl, h ▸ toNat_and_fieldMask w s k⟩

theorem kop_eq_three {c : BitVec 2} (h0 : c ≠ 0b00#2) (h1 : c ≠ 0b01#2) (h2 : c ≠ 0b10#2) : c = 0b11#2 := by
  revert c
  decide

/-- Bit 2 of `pop` is bit 10 of the word (R42). -/
theorem extract_pop_top (w : BitVec Config.preqW) : (w.extractLsb' 8 3).extractLsb' 2 1 = w.extractLsb' 10 1 := by
  ext i hi
  obtain rfl : i = 0 := by omega
  simp

/-- The reserved codes 4 to 7 of port P are those with the top bit set (R75). -/
theorem pop_top_bit {c : BitVec 3} (h0 : c ≠ 0b000#3) (h1 : c ≠ 0b001#3) (h2 : c ≠ 0b010#3) (h3 : c ≠ 0b011#3) :
    c.extractLsb' 2 1 = 1#1 := by
  revert c
  decide

theorem decodeK_row (w : BitVec Config.kreqW) :
    ∃ row ∈ opcodeMap, row.mnemonic = (decodeK w).mnemonic ∧ row.covers (.k w) = true := by
  unfold decodeK
  dsimp only
  split_ifs with h0 h1 h2
  · exact ⟨⟨"NOP.K", .K, _, _⟩, by decide, rfl, covers_k h0 _⟩
  · exact ⟨⟨"CONV", .K, _, _⟩, by decide, rfl, covers_k h1 _⟩
  · exact ⟨⟨"CONV3", .K, _, _⟩, by decide, rfl, covers_k h2 _⟩
  · exact ⟨⟨"RSVD.K", .K, _, _⟩, by decide, rfl, covers_k (kop_eq_three h0 h1 h2) _⟩

theorem decodeP_row (w : BitVec Config.preqW) :
    ∃ row ∈ opcodeMap, row.mnemonic = (decodeP w).mnemonic ∧ row.covers (.p w) = true := by
  unfold decodeP
  dsimp only
  split_ifs with h0 h1 h2 h3
  · exact ⟨⟨"NOP.P", .P, _, _⟩, by decide, rfl, covers_p h0 _⟩
  · exact ⟨⟨"PUSH", .P, _, _⟩, by decide, rfl, covers_p h1 _⟩
  · exact ⟨⟨"QFULL.P", .P, _, _⟩, by decide, rfl, covers_p h2 _⟩
  · exact ⟨⟨"QEMPTY.P", .P, _, _⟩, by decide, rfl, covers_p h3 _⟩
  · have htop : w.extractLsb' 10 1 = 1#1 := extract_pop_top w ▸ pop_top_bit h0 h1 h2 h3
    exact ⟨⟨"RSVD.P", .P, _, _⟩, by decide, rfl, covers_p htop _⟩

/-- The whole word of port C is its code, so in each case it is the word the encoder writes (R43). -/
theorem decodeC_row (w : BitVec 3) :
    ∃ row ∈ opcodeMap, row.mnemonic = (decodeC w).mnemonic ∧ row.covers (.c w) = true := by
  unfold decodeC
  split_ifs with h0 h1 h2 h3 h4 h5 h6
  · exact h0 ▸ Laws.EncodeCovered.nopC
  · exact h1 ▸ Laws.EncodeCovered.pop
  · exact h2 ▸ Laws.EncodeCovered.qfullC
  · exact h3 ▸ Laws.EncodeCovered.qemptyC
  · exact h4 ▸ Laws.EncodeCovered.flush
  · exact h5 ▸ Laws.EncodeCovered.rsvdC5
  · exact h6 ▸ Laws.EncodeCovered.rsvdC6
  · obtain rfl : w = 0b111#3 := by bv_omega
    exact Laws.EncodeCovered.rsvdC7

/-- Every request word is covered by the row that bears the mnemonic of its operation (R50). -/
theorem decode_row (r : Request) :
    ∃ row ∈ opcodeMap, row.mnemonic = (decode r).mnemonic ∧ row.covers r = true := by
  cases r with
  | k w => exact decodeK_row w
  | p w => exact decodeP_row w
  | c w => exact decodeC_row w

/-- Settles O20: the row of the decoded operation covers the word, and the rows of the map exclude each other. -/
theorem exactlyOneRowCoversEachRequest : Obligations.ExactlyOneRowCoversEachRequest := by
  intro r
  obtain ⟨row, hrow, hmnemonic, hcovers⟩ := decode_row r
  exact ⟨row, hrow, hcovers, hmnemonic, fun row' hrow' hcovers' => eq_of_covers hrow' hrow hcovers' hcovers⟩

end Sys2Proof

namespace Sys2Proof.Machine

/-! ### CONV and CONV3 (R48, R58, R68) -/

/-- The word with `kop` = 2 is CONV3 of its six bytes in stream order (R41, R48). -/
theorem decode_conv3 {w : BitVec 50} (h : w.extractLsb' 48 2 = 2#2) : decode (.k w) =
    .conv3 (w.extractLsb' 0 8) (w.extractLsb' 8 8) (w.extractLsb' 16 8) (w.extractLsb' 24 8) (w.extractLsb' 32 8)
      (w.extractLsb' 40 8) := by
  simp [decode, decodeK, kdataByte, h]

theorem intField_rawSample (lo hi : Byte) : intField (rawSample lo hi) = quotientWord lo hi := by
  rw [rawSample_eq_signed16]
  rfl

theorem fracField_rawSample (lo hi : Byte) : fracField (rawSample lo hi) = remainderWord lo hi := by
  rw [rawSample_eq_signed16]
  rfl

theorem exec_conv (lo hi : Byte) (s : State) : exec (.conv lo hi) s = .next { s with
    krsp := some { kst := .ok, int0 := some (quotientWord lo hi), frac0 := some (remainderWord lo hi) } } := by
  rw [← intField_rawSample, ← fracField_rawSample]
  rfl

theorem exec_conv3 (b0 b1 b2 b3 b4 b5 : Byte) (s : State) : exec (.conv3 b0 b1 b2 b3 b4 b5) s = .next { s with
    krsp := some { kst := .ok, int0 := some (quotientWord b0 b1), frac0 := some (remainderWord b0 b1),
                   int1 := some (quotientWord b2 b3), frac1 := some (remainderWord b2 b3),
                   int2 := some (quotientWord b4 b5), frac2 := some (remainderWord b4 b5) } } := by
  simp only [← intField_rawSample, ← fracField_rawSample]
  rfl

/-- Settles O28: the decoder at `kop` = 2, and the meanings of CONV3 and CONV in the words of their byte pairs. -/
theorem conv3AnswersThreeConversions : Obligations.Conv3AnswersThreeConversions :=
  ⟨fun _ => decode_conv3, fun b0 b1 b2 b3 b4 b5 s => ⟨exec_conv3 b0 b1 b2 b3 b4 b5 s, fun b c => exec_conv b c s⟩⟩

end Sys2Proof.Machine

/-! The converter (spec 40_converter.md) and the answers that carry a status alone (R57, R69, R70, R75, R78, R85).
What the answers of CONV satisfy is read from `truncatingPair` (R61): the pair of numbers CONV answers is one, and
a sample has no other. -/

namespace Sys2Proof.Machine

/-! ### The pair of a truncating division (R61) -/

/-- The quotient and the remainder of `phys` are a truncating pair (R59, R61). -/
theorem truncatingPair_phys (raw : Int) : truncatingPair raw (phys raw).1 (phys raw).2 := by
  refine ⟨(Int.tdiv_mul_add_tmod _ _).symm, Int.lt_tmod_of_pos _ (by decide), Int.tmod_lt_of_pos _ (by decide), ?_⟩
  change (raw * 4903325).tmod 10000000 = 0 ∨ (0 < (raw * 4903325).tmod 10000000 ∧ 0 < raw) ∨
    ((raw * 4903325).tmod 10000000 < 0 ∧ raw < 0)
  rcases lt_trichotomy raw 0 with hraw | rfl | hraw
  · have hsign := Int.tmod_nonneg 10000000 (show 0 ≤ -(raw * 4903325) by omega)
    rw [Int.neg_tmod] at hsign
    omega
  · exact .inl rfl
  · have hsign := Int.tmod_nonneg 10000000 (show 0 ≤ raw * 4903325 by omega)
    omega

namespace truncatingPair

variable {raw i f i' f' : Int}

/-- Truncation is symmetric (R64 (5)). -/
theorem neg (h : truncatingPair raw i f) : truncatingPair (-raw) (-i) (-f) := by
  obtain ⟨hsum, hlow, hhigh, hsign⟩ := h
  refine ⟨by omega, by omega, by omega, ?_⟩
  clear hsum hlow hhigh
  omega

theorem nonneg (h : truncatingPair raw i f) (hraw : 0 ≤ raw) : 0 ≤ i ∧ 0 ≤ f := by
  obtain ⟨hsum, hlow, hhigh, hsign⟩ := h
  omega

theorem nonpos (h : truncatingPair raw i f) (hraw : raw ≤ 0) : i ≤ 0 ∧ f ≤ 0 := by
  have := h.neg.nonneg (by omega)
  omega

/-- Two remainders of one sign, both smaller than the divisor, differ by less than it. -/
theorem remainder_diff_lt (h : truncatingPair raw i f) (h' : truncatingPair raw i' f') :
    -10000000 < f - f' ∧ f - f' < 10000000 := by
  obtain ⟨-, hlow, hhigh, -⟩ := id h
  obtain ⟨-, hlow', hhigh', -⟩ := id h'
  rcases le_total 0 raw with hraw | hraw
  · have := h.nonneg hraw
    have := h'.nonneg hraw
    omega
  · have := h.nonpos hraw
    have := h'.nonpos hraw
    omega

/-- One sample has one pair (R61). -/
theorem unique (h : truncatingPair raw i f) (h' : truncatingPair raw i' f') : i' = i ∧ f' = f := by
  have hdiff := h.remainder_diff_lt h'
  obtain ⟨hsum, -, -, -⟩ := h
  obtain ⟨hsum', -, -, -⟩ := h'
  omega

/-- The quotient too is zero or has the sign of the sample (R61). -/
theorem quotient_sign (h : truncatingPair raw i f) : i = 0 ∨ (0 < i ∧ 0 < raw) ∨ (i < 0 ∧ raw < 0) := by
  rcases lt_trichotomy raw 0 with hraw | rfl | hraw
  · have := h.nonpos hraw.le
    omega
  · have := h.nonneg le_rfl
    have := h.nonpos le_rfl
    omega
  · have := h.nonneg hraw.le
    omega

/-- No two of the three numbers have opposite signs (R64 (4)). -/
theorem products_nonneg (h : truncatingPair raw i f) : 0 ≤ i * f ∧ 0 ≤ raw * i ∧ 0 ≤ raw * f := by
  rcases le_total 0 raw with hraw | hraw
  · obtain ⟨hi, hf⟩ := h.nonneg hraw
    exact ⟨mul_nonneg hi hf, mul_nonneg hraw hi, mul_nonneg hraw hf⟩
  · obtain ⟨hi, hf⟩ := h.nonpos hraw
    exact ⟨mul_nonneg_of_nonpos_of_nonpos hi hf, mul_nonneg_of_nonpos_of_nonpos hraw hi,
      mul_nonneg_of_nonpos_of_nonpos hraw hf⟩

/-- A sample without a remainder is divisible by 10000000 / gcd(4903325, 10000000). -/
theorem dvd_of_remainder_eq_zero (h : truncatingPair raw i 0) : (400000 : Int) ∣ raw := by
  obtain ⟨hsum, -, -, -⟩ := h
  have hdvd : (400000 : Int) ∣ raw * 196133 := ⟨i, by linarith⟩
  exact IsCoprime.dvd_of_dvd_mul_right (by norm_num) hdvd

/-- The remainder is 0 for the sample 0 alone (R64 (6)): 400000 divides no other number of 16 bits. -/
theorem remainder_eq_zero_iff (h : truncatingPair raw i f) (hlow : -32768 ≤ raw) (hhigh : raw ≤ 32767) :
    f = 0 ↔ raw = 0 := by
  constructor
  · rintro rfl
    have hdvd : (400000 : Int) ∣ raw := dvd_of_remainder_eq_zero h
    omega
  · rintro rfl
    have hpos := h.nonneg le_rfl
    have hneg := h.nonpos le_rfl
    omega

/-- The quotient lies between the products at the ends of any range around 0 that holds the sample (R64 (2), (3)). -/
theorem quotient_between {a b : Int} (h : truncatingPair raw i f) (ha : a ≤ 0) (hb : 0 ≤ b) (hlow : a ≤ raw)
    (hhigh : raw ≤ b) : a * 4903325 ≤ i * 10000000 ∧ i * 10000000 ≤ b * 4903325 := by
  obtain ⟨hsum, -, -, -⟩ := id h
  rcases le_total 0 raw with hraw | hraw
  · have := h.nonneg hraw
    omega
  · have := h.nonpos hraw
    omega

end truncatingPair

/-! ### CONV in terms of its pair (R58 to R61) -/

theorem signed16_range (lo hi : Byte) : -32768 ≤ signed16 lo hi ∧ signed16 lo hi ≤ 32767 := by
  have := lo.isLt
  have := hi.isLt
  unfold signed16
  dsimp only
  split <;> omega

/-- CONV answers the words of the sample's truncating pair. -/
theorem exec_conv_of_truncatingPair {lo hi : Byte} {i f : Int} (h : truncatingPair (signed16 lo hi) i f) (s : State) :
    exec (.conv lo hi) s = .next { s with
      krsp := some { kst := .ok, int0 := some (BitVec.ofInt 64 i), frac0 := some (BitVec.ofInt 32 f) } } := by
  obtain ⟨rfl, rfl⟩ := (truncatingPair_phys _).unique h
  exact exec_conv lo hi s

/-- Settles O29: the pair of `phys`, which is the only one; for -1 the pair is (0, -4903325). -/
theorem convDivisionTruncates : Obligations.ConvDivisionTruncates := by
  refine ⟨fun lo hi s => ?_, exec_conv_of_truncatingPair (lo := 0xFF#8) (hi := 0xFF#8) (i := 0) ?_⟩
  · have h := truncatingPair_phys (signed16 lo hi)
    exact ⟨_, _, h, h.quotient_sign, fun _ _ h' => h.unique h', exec_conv_of_truncatingPair h s⟩
  · have hraw : signed16 0xFF#8 0xFF#8 = -1 := by decide
    rw [hraw]
    norm_num [truncatingPair]

/-- Settles O30: each range and identity is a fact about the truncating pairs of the two operands. -/
theorem convRangesAndIdentities : Obligations.ConvRangesAndIdentities := by
  intro lo hi lo' hi' s
  obtain ⟨hlow, hhigh⟩ := signed16_range lo hi
  have h := truncatingPair_phys (signed16 lo hi)
  have h' := truncatingPair_phys (signed16 lo' hi')
  obtain ⟨hsum, hflow, hfhigh, -⟩ := id h
  obtain ⟨hsum', hflow', hfhigh', -⟩ := id h'
  refine ⟨_, _, _, _, exec_conv_of_truncatingPair h s, exec_conv_of_truncatingPair h' s, hsum, by omega, ?range,
    ?range13, h.products_nonneg, ⟨hsum', by omega, by omega⟩, fun hraw => h.neg.unique (hraw ▸ h'),
    h.remainder_eq_zero_iff hlow hhigh, fun hlt => by omega⟩
  case range =>
    have := h.quotient_between (by decide) (by decide) hlow hhigh
    omega
  case range13 =>
    intro hlow13 hhigh13
    have := h.quotient_between (by decide) (by decide) hlow13 hhigh13
    omega

/-! ### The 64-bit data path (R60) -/

theorem raw_range (raw : BitVec 16) : -32768 ≤ raw.toInt ∧ raw.toInt ≤ 32767 :=
  ⟨raw.le_toInt, raw.toInt_le⟩

/-- The 64-bit signed product does not wrap (R60). -/
theorem toInt_scaled (raw : BitVec 16) : (raw.signExtend 64 * 4903325#64).toInt = raw.toInt * 4903325 := by
  obtain ⟨hlow, hhigh⟩ := raw_range raw
  have hnum : (4903325#64).toInt = 4903325 := by decide
  rw [BitVec.toInt_mul, BitVec.toInt_signExtend_of_le (by decide), hnum]
  exact Int.bmod_eq_of_le_mul_two (by omega) (by omega)

/-- The low bits of a word are its number's two's complement in fewer bits. -/
theorem setWidth_eq_ofInt_toInt {n m : Nat} (x : BitVec n) (h : m ≤ n) : x.setWidth m = BitVec.ofInt m x.toInt :=
  (x.signExtend_eq_setWidth_of_le h).symm

/-- The 64-bit multiply, divide and remainder give the fields of the exact conversion (R60). -/
theorem physDatapath_eq (raw : BitVec 16) : physDatapath raw = (intField raw.toInt, fracField raw.toInt) := by
  have hscaled : (raw.signExtend 64 * BitVec.ofInt 64 Config.scaleNum).toInt = raw.toInt * Config.scaleNum :=
    toInt_scaled raw
  have hden : (BitVec.ofInt 64 Config.scaleDen).toInt = Config.scaleDen := by decide
  refine Prod.ext ?_ ?_
  · apply BitVec.eq_of_toInt_eq
    simp only [physDatapath, intField, phys, BitVec.toInt_sdiv, BitVec.toInt_ofInt, hscaled, hden]
  · simp only [physDatapath, fracField, phys, setWidth_eq_ofInt_toInt _ (show 32 ≤ 64 by decide), BitVec.toInt_srem,
      hscaled, hden]

/-- Settles O31: no product of a 16-bit operand leaves the 39 bits, so no operation of the 64-bit path wraps. -/
theorem sixtyFourBitPathIsExact : Obligations.SixtyFourBitPathIsExact := by
  refine ⟨fun raw => ?_, by decide, by decide, by decide⟩
  obtain ⟨hlow, hhigh⟩ := raw_range raw
  exact ⟨toInt_scaled raw, by omega, by omega, by omega, by omega, physDatapath_eq raw⟩

/-! ### The CONV words (R41, R58, R65) -/

/-- The word with `kop` = 1 is CONV of its two low bytes, whatever its other bits (R41, R47). -/
theorem decode_conv {w : BitVec 50} (h : w.extractLsb' 48 2 = 1#2) :
    decode (.k w) = .conv (w.extractLsb' 0 8) (w.extractLsb' 8 8) := by
  simp [decode, decodeK, kdataByte, h]

/-- Settles O27: the decoder at `kop` = 1, and the meaning of CONV. -/
theorem convAnswersQuotientAndRemainder : Obligations.ConvAnswersQuotientAndRemainder :=
  ⟨fun _ => decode_conv, exec_conv⟩

/-- Two CONV words with one sample are one instruction (R65). -/
theorem decode_conv_congr {w w' : BitVec 50} (h : w.extractLsb' 48 2 = 1#2) (h' : w'.extractLsb' 48 2 = 1#2)
    (hsample : w.extractLsb' 0 16 = w'.extractLsb' 0 16) : decode (.k w) = decode (.k w') := by
  have hbyte (start : Nat) (hs : start + 8 ≤ 16) : w.extractLsb' start 8 = w'.extractLsb' start 8 := by
    rw [← BitVec.extractLsb'_extractLsb'_of_le hs, hsample, BitVec.extractLsb'_extractLsb'_of_le hs]
  rw [decode_conv h, decode_conv h', hbyte 0 (by decide), hbyte 8 (by decide)]

/-- Settles O32: both words are one CONV, whose response does not depend on the state. -/
theorem convDependsOnItsSampleAlone : Obligations.ConvDependsOnItsSampleAlone := by
  intro w w' s s' h h' hsample
  rw [← decode_conv_congr h h' hsample, decode_conv h]
  exact ⟨_, exec_conv _ _ s, exec_conv _ _ s'⟩

/-! ### The operations that answer a status alone -/

theorem decode_nopK {w : BitVec 50} (h : w.extractLsb' 48 2 = 0#2) : decode (.k w) = .nopK := by
  simp [decode, decodeK, h]

theorem decode_rsvdK {w : BitVec 50} (h : w.extractLsb' 48 2 = 3#2) : decode (.k w) = .rsvdK := by
  simp [decode, decodeK, h]

theorem decode_nopP {w : BitVec 11} (h : w.extractLsb' 8 3 = 0#3) : decode (.p w) = .nopP := by
  simp [decode, decodeP, h]

/-- The codes of port P with the top bit set are none of 0 to 3 (R75). -/
theorem pop_ne_of_top_bit {c : BitVec 3} (h : c.getLsbD 2 = true) : c ≠ 0#3 ∧ c ≠ 1#3 ∧ c ≠ 2#3 ∧ c ≠ 3#3 := by
  revert c
  decide

/-- The codes 4 to 7 of port P are reserved: bit 10 of the word is the top bit of `pop` (R42, R75). -/
theorem decode_rsvdP {w : BitVec 11} (h : w.getLsbD 10 = true) : decode (.p w) = .rsvdP := by
  have htop : (w.extractLsb' 8 3).getLsbD 2 = true := by simpa using h
  obtain ⟨h0, h1, h2, h3⟩ := pop_ne_of_top_bit htop
  simp [decode, decodeP, h0, h1, h2, h3]

section
variable (s : State)

/-! A no-operation answers OK on its port (R57, R70, R78). -/

theorem exec_nopK : exec .nopK s = .next (answerStatus .K .ok s) := rfl
theorem exec_nopP : exec .nopP s = .next (answerStatus .P .ok s) := rfl
theorem exec_nopC : exec .nopC s = .next (answerStatus .C .ok s) := rfl

/-! A reserved code answers ILLEGAL on its port (R69, R75, R85). -/

theorem exec_rsvdK : exec .rsvdK s = .next (answerStatus .K .illegal s) := rfl
theorem exec_rsvdP : exec .rsvdP s = .next (answerStatus .P .illegal s) := rfl
theorem exec_rsvdC5 : exec .rsvdC5 s = .next (answerStatus .C .illegal s) := rfl
theorem exec_rsvdC6 : exec .rsvdC6 s = .next (answerStatus .C .illegal s) := rfl
theorem exec_rsvdC7 : exec .rsvdC7 s = .next (answerStatus .C .illegal s) := rfl

end

/-- Settles O26: code 0 of each port is its no-operation, which answers the status OK. -/
theorem noOperationsAnswerOk : Obligations.NoOperationsAnswerOk :=
  ⟨fun _ => decode_nopK, fun _ => decode_nopP, rfl, fun s => ⟨exec_nopK s, exec_nopP s, exec_nopC s⟩⟩

/-- Settles O47: each reserved code decodes to its reserved instruction, which answers the status ILLEGAL. -/
theorem reservedCodesAnswerIllegal : Obligations.ReservedCodesAnswerIllegal :=
  ⟨fun _ => decode_rsvdK, fun _ => decode_rsvdP, rfl, rfl, rfl,
    fun s => ⟨exec_rsvdK s, exec_rsvdP s, exec_rsvdC5 s, exec_rsvdC6 s, exec_rsvdC7 s⟩⟩

end Sys2Proof.Machine

/-! The producer's side of the queue (spec 41_queue_producer.md). What the producer sees used, the distance from `RDV`
to `WR`, does not grow without a PUSH, whatever else happens (R73, R74); a PUSH with room appends its byte (R76) and
leaves what the consumer can see as it is (R77). -/

namespace Sys2Proof.Machine

/-! ### The words of port P (R42, R72 to R74) -/

theorem decode_push {w : BitVec 11} (h : w.extractLsb' 8 3 = 1#3) : decode (.p w) = .push (w.extractLsb' 0 8) := by
  simp [decode, decodeP, h]

theorem decode_qfullP {w : BitVec 11} (h : w.extractLsb' 8 3 = 2#3) : decode (.p w) = .qfullP := by
  simp [decode, decodeP, h]

theorem decode_qemptyP {w : BitVec 11} (h : w.extractLsb' 8 3 = 3#3) : decode (.p w) = .qemptyP := by
  simp [decode, decodeP, h]

theorem decode_encode_push (b : Byte) : decode (encode (.push b)) = .push b := by
  have hcode : (pushWord b).extractLsb' 8 3 = 1#3 := by
    rw [pushWord, extract_append_high _ _ le_rfl, Nat.sub_self, extract_whole]
  have hbyte : (pushWord b).extractLsb' 0 8 = b := by
    rw [pushWord, extract_append_low _ _ le_rfl, extract_whole]
  rw [encode, decode_push hcode, hbyte]

/-! ### PUSH, QFULL.P and QEMPTY.P (R72 to R74) -/

section
variable {s : State}

theorem fullP_eq_true_iff : fullP s = true ↔ s.wr + 1 = s.rdv := beq_iff_eq

theorem fullP_eq_false_iff : fullP s = false ↔ s.wr + 1 ≠ s.rdv := beq_eq_false_iff_ne

theorem exec_push_of_full (b : Byte) (hf : fullP s = true) : exec (.push b) s = .next (answerStatus .P .fail s) :=
  if_pos hf

theorem exec_push_of_room (b : Byte) (hf : fullP s = false) :
    exec (.push b) s = .next (answerStatus .P .ok (storeByte b s)) :=
  if_neg (Bool.eq_false_iff.mp hf)

theorem exec_qfullP (s : State) : exec .qfullP s = .next (respondP { pst := .ok, pflag := some (fullP s) } s) := rfl

theorem exec_qemptyP (s : State) : exec .qemptyP s = .next (respondP { pst := .ok, pflag := some (emptyP s) } s) := rfl

end

/-- Settles O33: the two outcomes of PUSH, and what a slot reads as after the write. -/
theorem pushStoresAtWrAndAdvancesIt : Obligations.PushStoresAtWrAndAdvancesIt := by
  refine ⟨fun _ => decode_push, fun b s => ⟨fun hfull => ?_, fun hroom => ?_⟩⟩
  · exact exec_push_of_full b (fullP_eq_true_iff.mpr hfull)
  · exact ⟨slotWrite s.mem s.wr b, exec_push_of_room b (fullP_eq_false_iff.mpr hroom),
      fun a => slotRead_slotWrite s.mem s.wr a b⟩

/-! ### What the producer sees used does not grow without a PUSH (R73, R74) -/

section
variable {s t : State}

theorem dist_rdv_wr_congr (ha : sameArch s t) : ringDist t.rdv t.wr = ringDist s.rdv s.wr := by
  obtain ⟨_, hwr, _, hrdv, _⟩ := ha
  rw [hwr, hrdv]

/-- Only SYNCR moves `RDV`, towards `RD` and so towards `WR`; only a PUSH moves `WR`; a reset leaves nothing used. -/
theorem dist_rdv_wr_le_of_happen {e : Event} (hi : RingInv s) (hpush : ∀ b, Event.asks e ≠ some (.push b))
    (h : happen e s = .next t) : ringDist t.rdv t.wr ≤ ringDist s.rdv s.wr := by
  rcases happen_arch h with ⟨b, hb, _⟩ | ⟨_, _, _, ha⟩ | ⟨_, ha⟩ | ⟨n, _, _, ha⟩ | ⟨n, _, hn, ha⟩ | ⟨_, ha⟩ | ha
  · exact absurd hb (hpush b)
  · exact (dist_rdv_wr_congr ha).le
  · exact (dist_rdv_wr_congr ha).le
  · exact (dist_rdv_wr_congr ha).le
  · have hused := hi.dist_rdv_wr
    rw [dist_rdv_wr_congr ha, setRdv_rdv, setRdv_wr, ringDist_advanceBy_left (by omega)]
    exact Nat.sub_le _ _
  · rw [dist_rdv_wr_congr ha]
    exact Nat.zero_le _
  · exact (dist_rdv_wr_congr ha).le

theorem dist_rdv_wr_le_of_happenAll {es : List Event} (hi : RingInv s)
    (hpush : ∀ e ∈ es, ∀ b, Event.asks e ≠ some (.push b)) (h : happenAll es s = .next t) :
    ringDist t.rdv t.wr ≤ ringDist s.rdv s.wr := by
  have hrun := happenAll_induction (P := fun u => RingInv u ∧ ringDist u.rdv u.wr ≤ ringDist s.rdv s.wr)
    (fun e u v he ⟨hiu, hle⟩ hv => ⟨hiu.happen hv, (dist_rdv_wr_le_of_happen hiu he hv).trans hle⟩)
  exact (hrun es s t hpush ⟨hi, le_rfl⟩ h).2

/-- Room that the producer has seen stays until it pushes. -/
theorem fullP_eq_false_of_happenAll {es : List Event} (hi : RingInv s)
    (hpush : ∀ e ∈ es, ∀ b, Event.asks e ≠ some (.push b)) (hf : fullP s = false) (h : happenAll es s = .next t) :
    fullP t = false := by
  have hle := dist_rdv_wr_le_of_happenAll hi hpush h
  rw [← Bool.not_eq_true, fullP_iff] at hf ⊢
  have := ringDist_le s.rdv s.wr
  omega

theorem awayFrom.asks_ne_push {e : Event} (he : awayFrom .P e) (b : Byte) : Event.asks e ≠ some (.push b) :=
  fun hb => he.2 (.push b) hb rfl

end

/-- Settles O34: the room QFULL.P reports stays through events away from port P, and a PUSH with room answers OK. -/
theorem qfullPAnswersAndFalseAllowsPush : Obligations.QfullPAnswersAndFalseAllowsPush := by
  refine ⟨fun _ => decode_qfullP, exec_qfullP, fun s t es b hi hroom haway h => ?_⟩
  have hs : fullP s = false := fullP_eq_false_iff.mpr hroom
  have ht : fullP t = false := fullP_eq_false_of_happenAll hi (fun e he => (haway e he).asks_ne_push) hs h
  exact ⟨fullTrue_eq_false hi hs, _, exec_push_of_room b ht, rfl⟩

/-- Settles O35: nothing is used where QEMPTY.P answers true, and that does not grow without a PUSH; a queue whose
emptiness the producer does not see yet is empty while QEMPTY.P answers false. -/
theorem qemptyPAnswersAndTrueLasts : Obligations.QemptyPAnswersAndTrueLasts := by
  refine ⟨fun _ => decode_qemptyP, exec_qemptyP, fun s t es hi hempty hpush h => ⟨?_, ?_⟩, ?_⟩
  · exact emptyTrue_of_emptyP hi (beq_iff_eq.mpr hempty)
  · have hle := dist_rdv_wr_le_of_happenAll hi hpush h
    rw [ringDist_eq_zero.mpr hempty] at hle
    exact ringDist_eq_zero.mp (Nat.le_zero.mp hle)
  · exact ⟨emptySeenFull, inv_emptySeenFull, by decide, by decide⟩

/-! ### A run of PUSHes (R76) -/

theorem happen_push_of_room {s : State} (b : Byte) (ho : s.outOfReset = true) (hf : fullP s = false) :
    happen (ask (.push b)) s = .next (answerStatus .P .ok (storeByte b s)) := by
  rw [ask, happen_request ho, decode_encode_push, exec_push_of_room b hf]

/-- As long as there is room for them as the producer sees it, PUSHes are served and append their bytes. -/
theorem happenAll_pushes {s : State} {q : Queue} (bs : List Byte) (hi : RingInv s) (hr : Represents s q)
    (ho : s.outOfReset = true) (hroom : q.bytes.length + q.lag + bs.length ≤ Config.qUsable) :
    ∃ t, happenAll (bs.map fun b => ask (.push b)) s = .next t ∧ RingInv t ∧
      Represents t { q with bytes := q.bytes ++ bs } ∧ t.wr = advanceBy s.wr bs.length := by
  induction bs generalizing s q with
  | nil =>
    refine ⟨s, rfl, hi, ?_, (advanceBy_zero s.wr).symm⟩
    rw [List.append_nil]
    exact hr
  | cons b bs ih =>
    rw [List.length_cons] at hroom
    have hf : fullP s = false := by
      rw [hr.fullP_eq hi]
      exact beq_eq_false_iff_ne.mpr (by omega)
    have hr₁ := (hr.storeByte b hi hf).respondP { pst := .ok }
    have hstep := happen_push_of_room b ho hf
    have hi₁ := hi.happen hstep
    obtain ⟨t, ht, hit, hrt, hwr⟩ := ih hi₁ hr₁ ho (by simp only [List.length_append, List.length_singleton]; omega)
    refine ⟨t, ?_, hit, ?_, ?_⟩
    · rw [List.map_cons, happenAll_cons_of hstep, ht]
    · rw [List.append_assoc, List.singleton_append] at hrt
      exact hrt
    · rw [hwr, answerStatus_wr, storeByte_wr, advanceBy_advance, List.length_cons]

/-- Settles O36: the run of PUSHes on the empty list of bytes uses up the 255 positions the producer sees. -/
theorem pushesFillTheQueueExactly : Obligations.PushesFillTheQueueExactly := by
  intro s bs b hi ho hempty hlen
  have hr : Represents s ⟨[], ringDist s.rd s.wrv, ringDist s.rdv s.rd⟩ := ⟨contents_eq_nil_iff.mpr hempty, rfl, rfl⟩
  have hused : bs.length + ringDist s.rdv s.rd = Config.qUsable := hlen
  obtain ⟨t, ht, hit, hrt, hwr⟩ := happenAll_pushes bs hi hr ho (by simp only [List.length_nil]; omega)
  rw [List.nil_append] at hrt
  have hfull : fullP t = true := by
    rw [hrt.fullP_eq hit]
    exact beq_iff_eq.mpr hused
  refine ⟨t, ht, hrt.bytes, hwr, ?_, exec_push_of_full b hfull⟩
  rw [exec_qfullP, hfull]
  rfl

/-! ### What the consumer can see (R77) -/

section
variable {s t u : State}

/-- Where the consumer sees a byte, the slot at `RD` is the first of the visible prefix. -/
theorem RingInv.head?_visible (hi : RingInv s) (he : emptyC s = false) :
    (visible s).head? = some (slotRead s.mem s.rd) := by
  have hseen := dist_rd_wrv_ne_zero he
  have hle := hi.dist_rd_wrv_le
  rw [visible, List.head?_take, if_neg hseen, List.head?_eq_getElem?, contents_getElem? (by omega), advanceBy_zero]

/-- A PUSH keeps the invariant, and `RD`, `WRV` and the visible prefix. -/
theorem exec_push_keeps_consumer {b : Byte} (hi : RingInv s) (h : exec (.push b) s = .next t) :
    RingInv t ∧ t.rd = s.rd ∧ t.wrv = s.wrv ∧ visible t = visible s := by
  rcases execPush_cases h with ⟨_, rfl⟩ | ⟨hf, rfl⟩
  · exact ⟨hi.congr (s := s) ⟨rfl, rfl, rfl, rfl, rfl⟩, rfl, rfl, rfl⟩
  · refine ⟨(hi.storeByte b hf).congr (s := storeByte b s) ⟨rfl, rfl, rfl, rfl, rfl⟩, rfl, rfl, ?_⟩
    have hlen : ringDist s.rd s.wrv ≤ (contents s).length := (contents_length s).symm ▸ hi.dist_rd_wrv_le
    change (contents (storeByte b s)).take (ringDist s.rd s.wrv) = visible s
    rw [contents_storeByte b hi hf, List.take_append_of_le_length hlen, visible]

theorem exec_pop_of_empty (he : emptyC s = true) : exec .pop s = .next (answerStatus .C .fail s) := if_pos he

theorem exec_pop_of_byte {b : Byte} (he : emptyC s = false) (hb : slotRead s.mem s.rd = some b) :
    exec .pop s = .next (respondC { cst := .ok, cdata := some b } (setRd (advance s.rd) s)) := by
  change execPop s = _
  rw [execPop, he, hb]
  rfl

/-- The operations of port C read `RD`, `WRV` and the visible prefix, and nothing else of the queue. -/
theorem exec_portC_congr {i : Instr} (his : RingInv s) (hit : RingInv t) (hrd : t.rd = s.rd) (hwrv : t.wrv = s.wrv)
    (hvisible : visible t = visible s) (hport : i.port = .C) (h : exec i s = .next u) :
    ∃ v, exec i t = .next v ∧ v.crsp = u.crsp ∧ v.rd = u.rd := by
  have hempty : emptyC t = emptyC s := by rw [emptyC, emptyC, hrd, hwrv]
  have hfull : fullC t = fullC s := by rw [fullC, fullC, hrd, hwrv]
  cases i with
  | pop =>
    rcases execPop_cases h with ⟨he, rfl⟩ | ⟨he, b, hb, rfl⟩
    · exact ⟨_, exec_pop_of_empty (hempty.trans he), rfl, hrd⟩
    · have hslot : some (slotRead t.mem t.rd) = some (slotRead s.mem s.rd) := by
        rw [← hit.head?_visible (hempty.trans he), ← his.head?_visible he, hvisible]
      refine ⟨_, exec_pop_of_byte (hempty.trans he) ((Option.some.inj hslot).trans hb), rfl, ?_⟩
      rw [respondC_rd, setRd_rd, respondC_rd, setRd_rd, hrd]
  | flush => cases h; exact ⟨_, rfl, rfl, hwrv⟩
  | qfullC => cases h; exact ⟨_, rfl, by rw [respondC_crsp, respondC_crsp, hfull], hrd⟩
  | qemptyC => cases h; exact ⟨_, rfl, by rw [respondC_crsp, respondC_crsp, hempty], hrd⟩
  | nopC | rsvdC5 | rsvdC6 | rsvdC7 => cases h; exact ⟨_, rfl, rfl, hrd⟩
  | nopK | conv | conv3 | rsvdK | nopP | push | qfullP | qemptyP | rsvdP => cases hport

end

/-- Settles O37: a PUSH keeps what the operations of port C read. -/
theorem pushDoesNotDisturbTheConsumer : Obligations.PushDoesNotDisturbTheConsumer := by
  intro s t u b i hi h
  obtain ⟨hit, hrd, hwrv, hvisible⟩ := exec_push_keeps_consumer hi h
  exact ⟨hrd, hwrv, hvisible, exec_portC_congr hi hit hrd hwrv hvisible⟩

end Sys2Proof.Machine

/-! The consumer's side of the queue (spec 42_queue_consumer.md). What the consumer sees, the distance from `RD` to
`WRV`, does not shrink without a POP, a FLUSH or a reset, whatever else happens (R81, R82); a FLUSH drops just that
part and keeps the bytes behind it (R83, R84); a run of POPs returns just that part, in order (R86); and the producer
reads nothing that an operation of port C writes (R87). -/

namespace Sys2Proof.Machine

/-! ### POP, QFULL.C, QEMPTY.C and FLUSH (R79, R81 to R83) -/

section
variable {s : State}

theorem emptyC_eq_true_iff : emptyC s = true ↔ s.rd = s.wrv := beq_iff_eq

theorem emptyC_eq_false_iff : emptyC s = false ↔ s.rd ≠ s.wrv := beq_eq_false_iff_ne

theorem fullC_eq_true_iff : fullC s = true ↔ s.wrv + 1 = s.rd := beq_iff_eq

theorem exec_qfullC (s : State) : exec .qfullC s = .next (respondC { cst := .ok, cflag := some (fullC s) } s) := rfl

theorem exec_qemptyC (s : State) : exec .qemptyC s = .next (respondC { cst := .ok, cflag := some (emptyC s) } s) := rfl

theorem exec_qemptyC_of_empty (he : emptyC s = true) :
    exec .qemptyC s = .next (respondC { cst := .ok, cflag := some true } s) := by
  rw [exec_qemptyC, he]

theorem exec_flush (s : State) : exec .flush s = .next (answerStatus .C .ok (setRd s.wrv s)) := rfl

/-- Under the invariant a POP of a queue that is not empty to the consumer answers OK, with the oldest byte. -/
theorem RingInv.exec_pop (hi : RingInv s) (he : emptyC s = false) :
    ∃ b, (contents s)[0]? = some (some b) ∧
      exec .pop s = .next (respondC { cst := .ok, cdata := some b } (setRd (advance s.rd) s)) := by
  have hpos : 0 < ringDist s.rd s.wr := by
    have := dist_rd_wrv_ne_zero he
    have := hi.dist_rd_wrv_le
    omega
  have hwritten := hi.written 0 hpos
  rw [advanceBy_zero] at hwritten
  obtain ⟨b, hb⟩ := Option.isSome_iff_exists.mp hwritten
  exact ⟨b, by rw [contents_getElem? hpos, advanceBy_zero, hb], exec_pop_of_byte he hb⟩

end

/-- Settles O38: the two outcomes of POP where the slot at `RD` has a byte. -/
theorem popLoadsAtRdAndAdvancesIt : Obligations.PopLoadsAtRdAndAdvancesIt := by
  refine ⟨rfl, fun s => ⟨fun hempty => ?_, fun b hseen hb => ?_⟩⟩
  · exact exec_pop_of_empty (emptyC_eq_true_iff.mpr hempty)
  · exact exec_pop_of_byte (emptyC_eq_false_iff.mpr hseen) hb

/-! ### What the consumer sees does not shrink without a POP, a FLUSH or a reset (R81, R82) -/

/-- The event neither resets the block nor asks for an operation that moves `RD` (R81). -/
def keepsRd (e : Event) : Prop := e ≠ .rstLow ∧ Event.asks e ≠ some .pop ∧ Event.asks e ≠ some .flush

theorem awayFrom.keepsRd {e : Event} (he : awayFrom .C e) : keepsRd e := by
  obtain ⟨hreset, hasks⟩ := he
  exact ⟨hreset, fun hpop => hasks .pop hpop rfl, fun hflush => hasks .flush hflush rfl⟩

section
variable {s t : State}

theorem dist_rd_wrv_congr (ha : sameArch s t) : ringDist t.rd t.wrv = ringDist s.rd s.wrv := by
  obtain ⟨_, _, hrd, _, hwrv⟩ := ha
  rw [hrd, hwrv]

/-- SYNCW makes the visible part longer by as many bytes as it steps. -/
theorem RingInv.dist_rd_wrv_advanceBy {n : Nat} (hi : RingInv s) (hn : n ≤ ringDist s.wrv s.wr) :
    ringDist s.rd (advanceBy s.wrv n) = ringDist s.rd s.wrv + n := by
  have := hi.view
  have := ringDist_le s.rd s.wr
  exact ringDist_advanceBy_right (by omega)

/-- Of the events that keep `RD`, only SYNCW moves `WRV`, away from `RD`. -/
theorem dist_rd_wrv_le_of_happen {e : Event} (hi : RingInv s) (he : keepsRd e) (h : happen e s = .next t) :
    ringDist s.rd s.wrv ≤ ringDist t.rd t.wrv := by
  obtain ⟨hreset, hpop, hflush⟩ := he
  rcases happen_arch h with ⟨b, _, _, ha⟩ | ⟨hp, _⟩ | ⟨hf, _⟩ | ⟨n, _, hn, ha⟩ | ⟨n, _, _, ha⟩ | ⟨hr, _⟩ | ha
  · exact (dist_rd_wrv_congr ha).ge
  · exact absurd hp hpop
  · exact absurd hf hflush
  · rw [dist_rd_wrv_congr ha, setWrv_rd, setWrv_wrv, hi.dist_rd_wrv_advanceBy hn]
    exact Nat.le_add_right _ _
  · exact (dist_rd_wrv_congr ha).ge
  · exact absurd hr hreset
  · exact (dist_rd_wrv_congr ha).ge

theorem inv_and_dist_rd_wrv_le_of_happenAll {es : List Event} (hi : RingInv s) (hes : ∀ e ∈ es, keepsRd e)
    (h : happenAll es s = .next t) : RingInv t ∧ ringDist s.rd s.wrv ≤ ringDist t.rd t.wrv := by
  have hrun := happenAll_induction (P := fun u => RingInv u ∧ ringDist s.rd s.wrv ≤ ringDist u.rd u.wrv)
    (fun e u v he ⟨hiu, hle⟩ hv => ⟨hiu.happen hv, hle.trans (dist_rd_wrv_le_of_happen hiu he hv)⟩)
  exact hrun es s t hes ⟨hi, le_rfl⟩ h

/-- A queue that the consumer has seen full stays full to it. -/
theorem fullC_of_happenAll {es : List Event} (hi : RingInv s) (hes : ∀ e ∈ es, keepsRd e) (hf : fullC s = true)
    (h : happenAll es s = .next t) : fullC t = true := by
  obtain ⟨_, hle⟩ := inv_and_dist_rd_wrv_le_of_happenAll hi hes h
  rw [fullC_iff] at hf ⊢
  have := ringDist_le t.rd t.wrv
  omega

/-- A byte that the consumer has seen stays visible to it. -/
theorem emptyC_eq_false_of_happenAll {es : List Event} (hi : RingInv s) (hes : ∀ e ∈ es, keepsRd e)
    (he : emptyC s = false) (h : happenAll es s = .next t) : emptyC t = false := by
  obtain ⟨_, hle⟩ := inv_and_dist_rd_wrv_le_of_happenAll hi hes h
  have := dist_rd_wrv_ne_zero he
  rw [← Bool.not_eq_true, emptyC_iff]
  omega

end

/-- 255 PUSHes after reset with no step of SYNCW: the queue is full and the consumer sees none of it. -/
theorem exists_full_unseen : ∃ s, RingInv s ∧ fullC s = false ∧ fullTrue s = true := by
  have hr : Represents State.reset ⟨[], 0, 0⟩ := ⟨rfl, rfl, rfl⟩
  obtain ⟨t, _, hit, hrt, _⟩ := happenAll_pushes (List.replicate 255 0#8) RingInv.reset hr rfl
    (by rw [List.length_replicate]; decide)
  have hlen := hrt.length
  rw [List.nil_append, List.length_replicate] at hlen
  exact ⟨t, hit, hrt.fullC_eq, (fullTrue_iff t).mpr hlen.symm⟩

/-- Settles O41: a queue QFULL.C reports full has no slot left, and stays so to the consumer until it moves `RD`; a
full queue that the consumer does not see yet is answered false. -/
theorem qfullCAnswersAndTrueLasts : Obligations.QfullCAnswersAndTrueLasts := by
  refine ⟨rfl, exec_qfullC, fun s t es hi hfull hes h => ?_, exists_full_unseen⟩
  have hs : fullC s = true := fullC_eq_true_iff.mpr hfull
  exact ⟨fullTrue_of_fullC hi hs, fullC_eq_true_iff.mp (fullC_of_happenAll hi hes hs h)⟩

/-- Settles O42: the byte QEMPTY.C reports stays visible through events away from port C, and a POP that sees a byte
answers OK. -/
theorem qemptyCAnswersAndFalseAllowsPop : Obligations.QemptyCAnswersAndFalseAllowsPop := by
  refine ⟨rfl, exec_qemptyC, fun s t es hi hseen haway h => ?_⟩
  have hs : emptyC s = false := emptyC_eq_false_iff.mpr hseen
  have hes : ∀ e ∈ es, keepsRd e := fun e he => (haway e he).keepsRd
  obtain ⟨hit, _⟩ := inv_and_dist_rd_wrv_le_of_happenAll hi hes h
  obtain ⟨b, _, hpop⟩ := hit.exec_pop (emptyC_eq_false_of_happenAll hi hes hs h)
  exact ⟨emptyTrue_eq_false hi hs, _, hpop, rfl⟩

/-! ### FLUSH drops the visible part, and the bytes behind it stay (R83, R84) -/

section
variable {s : State}

theorem RingInv.visible_length (hi : RingInv s) : (visible s).length = ringDist s.rd s.wrv := by
  rw [visible, List.length_take, contents_length, min_eq_left hi.dist_rd_wrv_le]

/-- Where the view has reached `WR`, all of the contents are visible. -/
theorem visible_eq_contents (h : s.wrv = s.wr) : visible s = contents s := by
  rw [visible, h, ← contents_length, List.take_length]

/-- `RD <- WRV` drops the visible part. -/
theorem RingInv.contents_setRd_wrv (hi : RingInv s) :
    contents (setRd s.wrv s) = (contents s).drop (ringDist s.rd s.wrv) := by
  have hdrop := contents_setRd hi.dist_rd_wrv_le
  rwa [advanceBy_ringDist] at hdrop

theorem happen_syncw_of_le {n : Nat} (hr : s.rstN = true) (hn : n ≤ ringDist s.wrv s.wr) :
    happen (.syncw n) s = .next (setWrv (advanceBy s.wrv n) s) := by
  change stepSyncw n s = _
  rw [stepSyncw, hr, if_neg (by decide), if_pos hn]

/-- SYNCW can step all the way to `WR`. -/
theorem happen_syncw_to_wr (hr : s.rstN = true) :
    happen (.syncw (ringDist s.wrv s.wr)) s = .next (setWrv s.wr s) := by
  rw [happen_syncw_of_le hr le_rfl, advanceBy_ringDist]

end

/-- Settles O43: the contents before a FLUSH, cut where the visible part ends, and the queue the consumer sees empty
after it. -/
theorem flushDropsWhatTheConsumerSees : Obligations.FlushDropsWhatTheConsumerSees := by
  refine ⟨rfl, fun s => ⟨_, exec_flush s, rfl, ?_, ?_, fun hi => ⟨?_, hi.visible_length⟩⟩⟩
  · exact exec_qemptyC_of_empty (emptyC_eq_true_iff.mpr rfl)
  · exact exec_pop_of_empty (emptyC_eq_true_iff.mpr rfl)
  · change contents s = visible s ++ contents (setRd s.wrv s)
    rw [hi.contents_setRd_wrv, visible, List.take_append_drop]

/-- Settles O44: FLUSH leaves the bytes behind the visible part as the contents, and SYNCW up to `WR` makes the
contents visible. -/
theorem bytesInFlightSurviveFlush : Obligations.BytesInFlightSurviveFlush := by
  intro s hi hr
  have hdrop : contents (answerStatus .C .ok (setRd s.wrv s)) = (contents s).drop (ringDist s.rd s.wrv) :=
    hi.contents_setRd_wrv
  exact ⟨_, _, exec_flush s, rfl, rfl, contents_length _, hdrop, happen_syncw_to_wr hr,
    (visible_eq_contents rfl).trans hdrop⟩

/-! ### A run of POPs (R86) -/

/-- `t` is the state after `n` POPs in `s`: still out of reset, and of the architectural items only `RD` has moved, on
by `n`. -/
structure AfterPops (n : Nat) (s t : State) : Prop where
  run : happenAll (List.replicate n (ask .pop)) s = .next t
  running : t.outOfReset = true
  arch : sameArch (setRd (advanceBy s.rd n) s) t

namespace AfterPops

variable {n : Nat} {s t : State}

theorem zero (ho : s.outOfReset = true) : AfterPops 0 s s :=
  ⟨rfl, ho, rfl, rfl, (advanceBy_zero s.rd).symm, rfl, rfl⟩

theorem dist_rd_wrv (hp : AfterPops n s t) (hn : n ≤ ringDist s.rd s.wrv) :
    ringDist t.rd t.wrv = ringDist s.rd s.wrv - n := by
  rw [dist_rd_wrv_congr hp.arch, setRd_rd, setRd_wrv, ringDist_advanceBy_left hn]

theorem contents_eq (hp : AfterPops n s t) (hi : RingInv s) (hn : n ≤ ringDist s.rd s.wrv) :
    contents t = (contents s).drop n := by
  rw [contents_congr hp.arch, contents_setRd (hn.trans hi.dist_rd_wrv_le)]

/-- One more POP, while the consumer sees a byte, answers the next byte of the contents. -/
theorem succ (hp : AfterPops n s t) (hi : RingInv s) (hn : n < ringDist s.rd s.wrv) :
    ∃ u b, AfterPops (n + 1) s u ∧ u.crsp = some { cst := .ok, cdata := some b } ∧
      (contents s)[n]? = some (some b) := by
  have hseen : emptyC t = false := by
    have := hp.dist_rd_wrv hn.le
    rw [← Bool.not_eq_true, emptyC_iff]
    omega
  obtain ⟨b, hb, hpop⟩ := ((hi.setRd_advanceBy hn.le).congr hp.arch).exec_pop hseen
  rw [hp.contents_eq hi hn.le, List.getElem?_drop, Nat.add_zero] at hb
  obtain ⟨hmem, hwr, hrd, hrdv, hwrv⟩ := hp.arch
  refine ⟨respondC { cst := .ok, cdata := some b } (setRd (advance t.rd) t), b,
    ⟨?_, hp.running, hmem, hwr, ?_, hrdv, hwrv⟩, rfl, hb⟩
  · rw [List.replicate_succ', happenAll_append hp.run]
    exact happenAll_cons_of ((happen_request hp.running).trans hpop)
  · rw [respondC_rd, setRd_rd, hrd, setRd_rd, setRd_rd, ← advanceBy_one, advanceBy_advanceBy]

/-- As many POPs are served as the consumer sees bytes. -/
theorem exists_of_le (hi : RingInv s) (ho : s.outOfReset = true) (hn : n ≤ ringDist s.rd s.wrv) :
    ∃ t, AfterPops n s t := by
  induction n with
  | zero => exact ⟨s, zero ho⟩
  | succ n ih =>
    obtain ⟨t, hp⟩ := ih (Nat.le_of_succ_le hn)
    obtain ⟨u, _, hu, _⟩ := hp.succ hi hn
    exact ⟨u, hu⟩

end AfterPops

/-- Settles O45: each POP of the run answers the byte at its position in the contents, and after as many POPs as the
consumer sees bytes it sees none. -/
theorem popsDrainExactlyTheReachableBytes : Obligations.PopsDrainExactlyTheReachableBytes := by
  intro s hi ho
  refine ⟨fun k hk => ?_, ?_⟩
  · obtain ⟨t, hp⟩ := AfterPops.exists_of_le hi ho hk.le
    obtain ⟨u, b, hu, hanswer, hb⟩ := hp.succ hi hk
    exact ⟨u, b, hu.run, hanswer, hb⟩
  · obtain ⟨t, hp⟩ := AfterPops.exists_of_le hi ho le_rfl
    have hempty : emptyC t = true := by rw [emptyC_iff, hp.dist_rd_wrv le_rfl, Nat.sub_self]
    exact ⟨t, hp.run, exec_pop_of_empty hempty, exec_qemptyC_of_empty hempty⟩

/-! ### What the producer reads (R87) -/

section
variable {s t u : State}

/-- No operation of port C writes the memory, `WR` or `RDV`. -/
theorem exec_portC_keeps_producer {i : Instr} (hport : i.port = .C) (h : exec i s = .next t) :
    t.mem = s.mem ∧ t.wr = s.wr ∧ t.rdv = s.rdv := by
  rcases exec_cases h with ⟨b, rfl, _⟩ | ⟨_, _, b, _, rfl⟩ | ⟨_, rfl⟩ | ha
  · cases hport
  · exact ⟨rfl, rfl, rfl⟩
  · exact ⟨rfl, rfl, rfl⟩
  · obtain ⟨hmem, hwr, _, hrdv, _⟩ := ha.sameArch
    exact ⟨hmem, hwr, hrdv⟩

/-- The operations of port P read the memory, `WR` and `RDV`, and nothing else. -/
theorem exec_portP_congr {j : Instr} (hmem : t.mem = s.mem) (hwr : t.wr = s.wr) (hrdv : t.rdv = s.rdv)
    (hport : j.port = .P) (h : exec j s = .next u) :
    ∃ v, exec j t = .next v ∧ v.prsp = u.prsp ∧ v.wr = u.wr ∧ v.mem = u.mem := by
  have hfull : fullP t = fullP s := by rw [fullP, fullP, hwr, hrdv]
  have hempty : emptyP t = emptyP s := by rw [emptyP, emptyP, hwr, hrdv]
  cases j with
  | push b =>
    rcases execPush_cases h with ⟨hf, rfl⟩ | ⟨hf, rfl⟩
    · exact ⟨_, exec_push_of_full b (hfull.trans hf), rfl, hwr, hmem⟩
    · refine ⟨_, exec_push_of_room b (hfull.trans hf), rfl, ?_, ?_⟩
      · simp only [answerOk_eq, answerStatus_wr, storeByte_wr, hwr]
      · simp only [answerOk_eq, answerStatus_mem, storeByte_mem, hwr, hmem]
  | qfullP => cases h; exact ⟨_, rfl, by rw [respondP_prsp, respondP_prsp, hfull], hwr, hmem⟩
  | qemptyP => cases h; exact ⟨_, rfl, by rw [respondP_prsp, respondP_prsp, hempty], hwr, hmem⟩
  | nopP | rsvdP => cases h; exact ⟨_, rfl, rfl, hwr, hmem⟩
  | nopK | conv | conv3 | rsvdK | nopC | pop | qfullC | qemptyC | flush | rsvdC5 | rsvdC6 | rsvdC7 => cases hport

end

/-- Settles O46: an operation of port C keeps what the operations of port P read. -/
theorem consumerDoesNotDisturbTheProducer : Obligations.ConsumerDoesNotDisturbTheProducer := by
  intro s t u i j hi hj ht hu
  obtain ⟨hmem, hwr, hrdv⟩ := exec_portC_keeps_producer hi ht
  obtain ⟨v, hv, hprsp, hvwr, hvmem⟩ := exec_portP_congr hmem hwr hrdv hj hu
  exact ⟨hwr, hrdv, fun a => by rw [hmem], v, hv, hprsp, hvwr, fun a => by rw [hvmem]⟩

end Sys2Proof.Machine

/-! The synchronisers (spec 43_cdc_synchronisers.md). Without a PUSH the lag of `WRV` behind `WR` never grows, and each
SYNCW of at least one makes it smaller; without a POP or a FLUSH the same holds of `RDV` and SYNCR. A fair synchroniser
therefore brings its lag to 0 (R91). The gray code is linear over exclusive-or, so the bit in which the codes of
neighbours differ is the code of the run of low ones in which the neighbours differ (R93, R94). -/

namespace Sys2Proof.Machine

/-! ### A lag that does not grow and is made smaller fairly (R91) -/

/-- A view whose distance to its index never grows, and shrinks again whenever the view stays behind, reaches the index
and stays there: the distance is constant from some point on, and a constant distance other than 0 never shrinks. -/
theorem eventually_eq_of_fair_lag {view index : Nat → Index}
    (hle : ∀ k, ringDist (view (k + 1)) (index (k + 1)) ≤ ringDist (view k) (index k))
    (hfair : ∀ k, (∀ j ≥ k, view j ≠ index j) →
      ∃ j ≥ k, ringDist (view (j + 1)) (index (j + 1)) < ringDist (view j) (index j)) :
    ∃ k, ∀ j ≥ k, view j = index j := by
  have hanti : Antitone fun k => ringDist (view k) (index k) := antitone_nat_of_succ_le hle
  obtain ⟨k, hconst⟩ := WellFoundedLT.antitone_chain_condition hanti
  have hcaught : view k = index k := by
    by_contra hne
    have hlags : ∀ j ≥ k, view j ≠ index j := fun j hj heq =>
      hne (ringDist_eq_zero.mp ((hconst j hj).trans (ringDist_eq_zero.mpr heq)))
    obtain ⟨j, hj, hlt⟩ := hfair k hlags
    have hnow := hconst j hj
    have hnext := hconst (j + 1) (Nat.le_succ_of_le hj)
    omega
  exact ⟨k, fun j hj => ringDist_eq_zero.mp ((hconst j hj).symm.trans (ringDist_eq_zero.mpr hcaught))⟩

/-! ### What an event does to the two lags (R89, R90) -/

section
variable {s t : State}

theorem dist_wrv_wr_congr (ha : sameArch s t) : ringDist t.wrv t.wr = ringDist s.wrv s.wr := by
  obtain ⟨_, hwr, _, _, hwrv⟩ := ha
  rw [hwr, hwrv]

theorem dist_rdv_rd_congr (ha : sameArch s t) : ringDist t.rdv t.rd = ringDist s.rdv s.rd := by
  obtain ⟨_, _, hrd, hrdv, _⟩ := ha
  rw [hrd, hrdv]

/-- Only a PUSH moves `WR`; SYNCW moves `WRV` towards it; a reset leaves no lag. -/
theorem dist_wrv_wr_le_of_happen {e : Event} (hpush : ∀ b, Event.asks e ≠ some (.push b))
    (h : happen e s = .next t) : ringDist t.wrv t.wr ≤ ringDist s.wrv s.wr := by
  rcases happen_arch h with ⟨b, hb, _⟩ | ⟨_, _, _, ha⟩ | ⟨_, ha⟩ | ⟨n, _, hn, ha⟩ | ⟨n, _, _, ha⟩ | ⟨_, ha⟩ | ha
  · exact absurd hb (hpush b)
  · exact (dist_wrv_wr_congr ha).le
  · exact (dist_wrv_wr_congr ha).le
  · rw [dist_wrv_wr_congr ha, setWrv_wrv, setWrv_wr, ringDist_advanceBy_left hn]
    exact Nat.sub_le _ _
  · exact (dist_wrv_wr_congr ha).le
  · rw [dist_wrv_wr_congr ha]
    exact Nat.zero_le _
  · exact (dist_wrv_wr_congr ha).le

/-- Only a POP or a FLUSH moves `RD`; SYNCR moves `RDV` towards it. -/
theorem dist_rdv_rd_le_of_happen {e : Event} (he : keepsRd e) (h : happen e s = .next t) :
    ringDist t.rdv t.rd ≤ ringDist s.rdv s.rd := by
  obtain ⟨hreset, hpop, hflush⟩ := he
  rcases happen_arch h with ⟨b, _, _, ha⟩ | ⟨hp, _⟩ | ⟨hf, _⟩ | ⟨n, _, _, ha⟩ | ⟨n, _, hn, ha⟩ | ⟨hr, _⟩ | ha
  · exact (dist_rdv_rd_congr ha).le
  · exact absurd hp hpop
  · exact absurd hf hflush
  · exact (dist_rdv_rd_congr ha).le
  · rw [dist_rdv_rd_congr ha, setRdv_rdv, setRdv_rd, ringDist_advanceBy_left hn]
    exact Nat.sub_le _ _
  · exact absurd hr hreset
  · exact (dist_rdv_rd_congr ha).le

/-- SYNCW(n) takes `n` off the lag of `WRV`. -/
theorem dist_wrv_wr_of_syncw {n : Nat} (h : happen (.syncw n) s = .next t) :
    ringDist t.wrv t.wr + n = ringDist s.wrv s.wr := by
  obtain ⟨_, hn, rfl⟩ := stepSyncw_cases h
  rw [setWrv_wrv, setWrv_wr, ringDist_advanceBy_left hn, Nat.sub_add_cancel hn]

/-- SYNCR(n) takes `n` off the lag of `RDV`. -/
theorem dist_rdv_rd_of_syncr {n : Nat} (h : happen (.syncr n) s = .next t) :
    ringDist t.rdv t.rd + n = ringDist s.rdv s.rd := by
  obtain ⟨_, hn, rfl⟩ := stepSyncr_cases h
  rw [setRdv_rdv, setRdv_rd, ringDist_advanceBy_left hn, Nat.sub_add_cancel hn]

end

/-- Settles O50: each lag never grows while its index rests, and weak fairness makes it smaller until it is 0. -/
theorem fairSynchronisersCatchUp : Obligations.FairSynchronisersCatchUp := by
  intro st ev hrun hreset
  refine ⟨fun hpush hfair => ?_, fun hkeeps hfair => ?_⟩
  · refine eventually_eq_of_fair_lag (fun k => dist_wrv_wr_le_of_happen (hpush k) (hrun k)) fun k hlags => ?_
    obtain ⟨j, hj, n, hn, hev⟩ := hfair k hlags
    have hstep := dist_wrv_wr_of_syncw (hev ▸ hrun j)
    exact ⟨j, hj, by omega⟩
  · refine eventually_eq_of_fair_lag (fun k => dist_rdv_rd_le_of_happen ⟨hreset k, hkeeps k⟩ (hrun k))
      fun k hlags => ?_
    obtain ⟨j, hj, n, hn, hev⟩ := hfair k hlags
    have hstep := dist_rdv_rd_of_syncr (hev ▸ hrun j)
    exact ⟨j, hj, by omega⟩

/-! ### The gray code (R93, R94) -/

theorem gray_xor (a b : Index) : gray (a ^^^ b) = gray a ^^^ gray b := by
  simp only [gray, BitVec.ushiftRight_xor_distrib]
  ac_rfl

theorem ungray_xor (g h : BitVec 8) : ungray (g ^^^ h) = ungray g ^^^ ungray h := by
  simp only [ungray, BitVec.ushiftRight_xor_distrib]
  ac_rfl

/-- `ungray` is made of shifts, which commute with one another. -/
theorem ungray_shift (g : BitVec 8) : ungray (g >>> 1) = ungray g >>> 1 := by
  simp only [ungray, BitVec.ushiftRight_xor_distrib, ← BitVec.shiftRight_add, Nat.add_comm 1]

/-- Shifting `ungray g` on by one drops its first term, `g` itself: the new last term, `g` shifted by 8, is 0. -/
theorem ungray_shift_eq (g : BitVec 8) : ungray g >>> 1 = g ^^^ ungray g := by
  have hlast : g >>> 8 = 0#8 := BitVec.ushiftRight_eq_zero le_rfl
  simp only [ungray, BitVec.ushiftRight_xor_distrib, ← BitVec.shiftRight_add, Nat.reduceAdd, hlast, BitVec.xor_zero,
    ← BitVec.xor_assoc, BitVec.xor_self, BitVec.zero_xor]

theorem gray_ungray (g : BitVec 8) : gray (ungray g) = g := by
  rw [gray, ungray_shift_eq, BitVec.xor_comm, BitVec.xor_assoc, BitVec.xor_self, BitVec.xor_zero]

theorem ungray_gray (b : Index) : ungray (gray b) = b := by
  calc ungray (gray b) = ungray b ^^^ ungray b >>> 1 := by rw [gray, ungray_xor, ungray_shift]
    _ = gray (ungray b) := rfl
    _ = b := gray_ungray b

/-- Adding one turns over the run of low ones of a number and the zero above it. -/
theorem exists_xor_succ_eq (n : Nat) : ∃ i, (n ^^^ (n + 1)) + 1 = 2 ^ (i + 1) := by
  induction n using Nat.binaryRec with
  | zero => exact ⟨0, rfl⟩
  | bit c m ih =>
    cases c with
    | false =>
      have hsucc : Nat.bit false m + 1 = Nat.bit true m := rfl
      exact ⟨0, by rw [hsucc, Nat.xor_bit, Nat.xor_self]; rfl⟩
    | true =>
      obtain ⟨i, hi⟩ := ih
      have hsucc : Nat.bit true m + 1 = Nat.bit false (m + 1) := rfl
      have hxor : Nat.bit true m ^^^ Nat.bit false (m + 1) = 2 * (m ^^^ (m + 1)) + 1 := Nat.xor_bit true m false (m + 1)
      exact ⟨i + 1, by rw [hsucc, hxor, Nat.pow_succ, ← hi]; omega⟩

/-- Neighbouring indices differ in a run of low bits; 255 and 0 differ in all of them, the carry being dropped. -/
theorem exists_index_xor_succ_eq (b : Index) : ∃ i < 9, b ^^^ (b + 1) = BitVec.ofNat 8 (2 ^ (i + 1) - 1) := by
  obtain ⟨i, hi⟩ := exists_xor_succ_eq b.toNat
  have hbound : b.toNat ^^^ (b.toNat + 1) < 2 ^ 9 := Nat.xor_lt_two_pow (by omega) (by omega)
  have hpow : 2 ^ (i + 1) < 2 ^ 10 := by omega
  have hi9 : i + 1 < 10 := (Nat.pow_lt_pow_iff_right (by decide)).mp hpow
  exact ⟨i, by omega, by simp [← hi, BitVec.ofNat_add]⟩

/-- The code of a run of low ones is the highest of them. -/
theorem exists_gray_low_ones_eq : ∀ i < 9, ∃ j < 8, gray (BitVec.ofNat 8 (2 ^ (i + 1) - 1)) = 1#8 <<< j := by decide

theorem exists_gray_xor_gray_succ_eq (b : Index) : ∃ i < 8, gray b ^^^ gray (b + 1) = 1#8 <<< i := by
  obtain ⟨i, hi, hrun⟩ := exists_index_xor_succ_eq b
  rw [← gray_xor, hrun]
  exact exists_gray_low_ones_eq i hi

/-- Settles O51: the two inverses, the bit in which neighbours differ, and the five bits of 5 and 200. -/
theorem grayNeighboursDifferInOneBit : Obligations.GrayNeighboursDifferInOneBit :=
  ⟨ungray_gray, gray_ungray, exists_gray_xor_gray_succ_eq, by decide⟩

end Sys2Proof.Machine

/-! Failing operations (spec 60_exceptions.md): an operation that stores a byte or moves `RD` answers OK, so one that
answers another status has only answered (R107). -/

namespace Sys2Proof.Machine

theorem statusOn_answerOk (p : Port) (s : State) : statusOn p (answerOk p s) = some .ok := by
  cases p <;> rfl

theorem statusOn_respondC (r : CRsp) (s : State) : statusOn .C (respondC r s) = some r.cst := rfl

/-- The three operations that write an architectural item, PUSH with room, POP with a byte and FLUSH, answer OK; the
others write none. -/
theorem exec_answers_ok_or_keeps_arch {i : Instr} {s t : State} (h : exec i s = .next t) :
    statusOn i.port t = some .ok ∨ sameArch s t := by
  rcases exec_cases h with ⟨b, rfl, _, rfl⟩ | ⟨rfl, _, b, _, rfl⟩ | ⟨rfl, rfl⟩ | ha
  · exact .inl (statusOn_answerOk .P _)
  · exact .inl (statusOn_respondC _ _)
  · exact .inl (statusOn_answerOk .C _)
  · exact .inr ha.sameArch

/-- Settles O57: the operations that write an architectural item answer OK, which the failing status excludes. -/
theorem failingOperationsChangeNothing : Obligations.FailingOperationsChangeNothing :=
  fun _ _ _ h hfail => (exec_answers_ok_or_keeps_arch h).resolve_left hfail

end Sys2Proof.Machine

/-! Undefined response fields (spec 70_reset_and_hazards.md R126): the three operations that write an architectural item
answer OK with the byte of a POP or with no field, and an operation that only answers does so with a response whose
fields are the valid ones (`Answers`). -/

namespace Sys2Proof.Machine

/-- Settles O24: PUSH with room, POP with a byte, FLUSH, and an operation that only answers, on each of the three
ports. -/
theorem onlyValidResponseFieldsHaveAValue : Obligations.OnlyValidResponseFieldsHaveAValue := by
  intro i s t h
  rcases exec_cases h with ⟨b, rfl, _, rfl⟩ | ⟨rfl, _, b, _, rfl⟩ | ⟨rfl, rfl⟩ | ha
  · exact ⟨{ pst := .ok }, rfl, rfl⟩
  · exact ⟨{ cst := .ok, cdata := some b }, rfl, rfl⟩
  · exact ⟨{ cst := .ok }, rfl, rfl⟩
  · cases ha with
    | onK r port wf eq => rw [port, eq]; exact ⟨r, rfl, wf⟩
    | onP r port wf eq => rw [port, eq]; exact ⟨r, rfl, wf⟩
    | onC r port wf eq => rw [port, eq]; exact ⟨r, rfl, wf⟩

end Sys2Proof.Machine

/-! Every step of every agent (spec 10_state.md): the invariant of R19 as a law of the machine's step, the operations
complete under it, and every invariant state stands for one list of bytes (R22). Each piece of state has one writer
(R18), and a view moves only towards its index (R16, R17). -/

namespace Sys2Proof.Machine

/-! ### A step takes the first event, or none (R23) -/

/-- The schedule is no architectural item. -/
theorem sameArch_setSchedule (es : List Event) (s : State) : sameArch s (setSchedule es s) := ⟨rfl, rfl, rfl, rfl, rfl⟩

theorem step_cases (s : State) :
    step s = .next s ∨ ∃ e rest, s.schedule = e :: rest ∧ step s = happen e (setSchedule rest s) := by
  cases hs : s.schedule with
  | nil => exact .inl (step_nil hs)
  | cons e rest => exact .inr ⟨e, rest, rfl, step_cons hs⟩

/-- Settles O59: the two cases of the schedule. -/
theorem stepTakesTheFirstEvent : Obligations.StepTakesTheFirstEvent :=
  fun _ => ⟨step_nil, fun _ _ => step_cons⟩

/-- Settles O58: the first event is a request, and out of reset a request is its instruction's meaning. -/
theorem stepServesTheFirstRequest : Obligations.StepServesTheFirstRequest :=
  fun _ _ _ hs ho _ => (step_cons hs).trans (happen_request ho)

/-- A request that has just arrived stands first, at a block out of reset. -/
theorem step_presentFirst (r : Request) (s : State) :
    step (presentFirst r s) = exec (decode r) { s with rstN := true, upK := true, upP := true, upC := true } :=
  (step_cons rfl).trans (happen_request rfl)

theorem step_withFetchWord {s : State} {nbits w : Nat} {r : Request} (h : requestOfBits nbits w = .ok r) :
    step (s.withFetchWord nbits w) =
      exec (decode r) { s with rstN := true, upK := true, upP := true, upC := true } := by
  rw [State.withFetchWord, h]
  exact step_presentFirst r s

/-! The numbers of bits that name a port (R40, R56). -/

theorem requestOfBits_k (w : BitVec 50) : requestOfBits 56 w.toNat = .ok (.k w) := by
  simp [requestOfBits, w.isLt]

theorem requestOfBits_p (w : BitVec 11) : requestOfBits 16 w.toNat = .ok (.p w) := by
  simp [requestOfBits, w.isLt]

theorem requestOfBits_c (w : BitVec 3) : requestOfBits 8 w.toNat = .ok (.c w) := by
  simp [requestOfBits, w.isLt]

/-- Settles O60: the bits of each table row are a request of its port, which the next step takes. -/
theorem arrivingRequestIsServedNext : Obligations.ArrivingRequestIsServedNext :=
  fun _ => ⟨fun w => step_withFetchWord (requestOfBits_k w), fun w => step_withFetchWord (requestOfBits_p w),
    fun w => step_withFetchWord (requestOfBits_c w)⟩

/-! ### The invariant along the steps (R19) -/

/-- Settles O8: a step is an event, and every event keeps the invariant. -/
theorem everyStepKeepsTheInvariant : Obligations.EveryStepKeepsTheInvariant := by
  intro s t hi h
  rcases step_cases s with hidle | ⟨e, rest, _, hstep⟩
  · rw [hidle] at h
    cases h
    exact hi
  · exact (hi.congr (sameArch_setSchedule rest s)).happen (hstep.symm.trans h)

/-- Settles O7: the invariant does not read the schedule. -/
theorem invariantHoldsAfterReset : Obligations.InvariantHoldsAfterReset :=
  fun es => RingInv.reset.congr (sameArch_setSchedule es State.reset)

/-! ### Every operation completes under the invariant -/

section
variable {s : State}

/-- POP is the only operation that can stop. -/
theorem exec_completes_of_ne_pop {i : Instr} (hpop : i ≠ .pop) (s : State) : ∃ t, exec i s = .next t := by
  cases i with
  | push b =>
    cases hf : fullP s with
    | true => exact ⟨_, exec_push_of_full b hf⟩
    | false => exact ⟨_, exec_push_of_room b hf⟩
  | pop => exact absurd rfl hpop
  | nopK | conv | conv3 | rsvdK | nopP | qfullP | qemptyP | rsvdP | nopC | qfullC | qemptyC | flush | rsvdC5 | rsvdC6
  | rsvdC7 => exact ⟨_, rfl⟩

/-- Under the invariant the slot a POP reads has been written, so it does not stop either. -/
theorem RingInv.exec_completes (hi : RingInv s) (i : Instr) : ∃ t, exec i s = .next t := by
  by_cases hpop : i = .pop
  · subst hpop
    cases he : emptyC s with
    | true => exact ⟨_, exec_pop_of_empty he⟩
    | false =>
      obtain ⟨b, _, hb⟩ := hi.exec_pop he
      exact ⟨_, hb⟩
  · exact exec_completes_of_ne_pop hpop s

theorem RingInv.happen_ne_fault (hi : RingInv s) (e : Event) (f : Fault) : Machine.happen e s ≠ .fault f := by
  intro h
  cases e with
  | request r =>
    change serveRequest r s = .fault f at h
    obtain ⟨t, ht⟩ := hi.exec_completes (decode r)
    rw [serveRequest, ht] at h
    split at h <;> cases h
  | syncw n =>
    change stepSyncw n s = .fault f at h
    unfold stepSyncw at h
    split_ifs at h
  | syncr n =>
    change stepSyncr n s = .fault f at h
    unfold stepSyncr at h
    split_ifs at h
  | rstLow => cases h
  | rstHigh => cases h
  | leaveReset p =>
    change stepLeaveReset p s = .fault f at h
    unfold stepLeaveReset at h
    split_ifs at h

end

/-- Settles O9: only a request can fault, and under the invariant every operation completes. -/
theorem noStepFaultsUnderTheInvariant : Obligations.NoStepFaultsUnderTheInvariant := by
  intro s f hi h
  rcases step_cases s with hidle | ⟨e, rest, _, hstep⟩
  · rw [hidle] at h
    cases h
  · exact (hi.congr (sameArch_setSchedule rest s)).happen_ne_fault e f (hstep.symm.trans h)

/-- Settles O39: POP where the consumer sees a byte and the slot at `RD` has none. -/
theorem popOfAnUnwrittenSlotStops : Obligations.PopOfAnUnwrittenSlotStops := by
  intro s hseen hslot
  change execPop s = _
  rw [execPop, emptyC_eq_false_iff.mpr hseen, hslot]
  rfl

/-! ### The list of bytes a state stands for (R22) -/

theorem exists_map_some_of_isSome {l : List (Option Byte)} (h : ∀ x ∈ l, x.isSome) :
    ∃ bs : List Byte, l = bs.map some := by
  induction l with
  | nil => exact ⟨[], rfl⟩
  | cons x l ih =>
    obtain ⟨hx, hl⟩ := List.forall_mem_cons.mp h
    obtain ⟨b, rfl⟩ := Option.isSome_iff_exists.mp hx
    obtain ⟨bs, rfl⟩ := ih hl
    exact ⟨b :: bs, rfl⟩

theorem Represents.unique {s : State} {q q' : Queue} (hr : Represents s q) (hr' : Represents s q') : q' = q := by
  obtain ⟨bytes, seen, lag⟩ := q
  obtain ⟨bytes', seen', lag'⟩ := q'
  obtain rfl : bytes' = bytes := List.map_injective_iff.mpr (Option.some_injective _) (hr'.bytes.symm.trans hr.bytes)
  obtain rfl : seen' = seen := hr'.seen.trans hr.seen.symm
  obtain rfl : lag' = lag := hr'.lag.trans hr.lag.symm
  rfl

/-- Settles O12: all slots of the contents are written, and the three fields of a queue are read from the state. -/
theorem everyInvariantStateStandsForOneQueue : Obligations.EveryInvariantStateStandsForOneQueue := by
  intro s hi
  obtain ⟨bytes, hbytes⟩ := exists_map_some_of_isSome hi.isSome_of_mem_contents
  have hr : Represents s ⟨bytes, ringDist s.rd s.wrv, ringDist s.rdv s.rd⟩ := ⟨hbytes, rfl, rfl⟩
  exact ⟨_, hr, fun _ hr' => hr.unique hr'⟩

/-- Settles O40: the byte a POP answers is the first of the contents, and `RD` moved on by one drops it. -/
theorem popReturnsTheOldestByte : Obligations.PopReturnsTheOldestByte := by
  intro s hi hseen
  have he : emptyC s = false := emptyC_eq_false_iff.mpr hseen
  have hpos : 1 ≤ ringDist s.rd s.wrv := Nat.one_le_iff_ne_zero.mpr (dist_rd_wrv_ne_zero he)
  obtain ⟨b, hb, hpop⟩ := hi.exec_pop he
  have hrest : contents (setRd (advance s.rd) s) = (contents s).drop 1 := contents_setRd (hpos.trans hi.dist_rd_wrv_le)
  have hdist : ringDist (advance s.rd) s.wrv = ringDist s.rd s.wrv - 1 := ringDist_advanceBy_left hpos
  have hcons : contents s = some b :: contents (setRd (advance s.rd) s) := by
    rw [hrest, List.drop_one]
    exact (List.cons_head?_tail (by rw [List.head?_eq_getElem?]; exact hb)).symm
  refine ⟨_, b, hpop, rfl, hcons, ?_⟩
  change (contents s).take _ = some b :: (contents (setRd (advance s.rd) s)).take (ringDist (advance s.rd) s.wrv)
  rw [hdist, ← List.take_succ_cons, ← hcons, Nat.sub_add_cancel hpos]

/-! ### One writer for each piece of state (R18) -/

/-- Settles O5: the six ways the architectural items can change, each by its own events. -/
theorem eachPieceOfStateHasOneWriter : Obligations.EachPieceOfStateHasOneWriter := by
  intro s t e hreset h
  rcases happen_arch h with ⟨b, hb, _, ha⟩ | ⟨hpop, _, _, ha⟩ | ⟨hflush, ha⟩ | ⟨n, rfl, _, ha⟩ | ⟨n, rfl, _, ha⟩ |
    ⟨hr, _⟩ | ha
  pick_goal 6
  · exact absurd hr hreset
  all_goals obtain ⟨hmem, hwr, hrd, hrdv, hwrv⟩ := ha; rw [hmem, hwr, hrd, hrdv, hwrv]
  · exact ⟨fun _ => ⟨b, hb⟩, (absurd rfl ·), (absurd rfl ·), (absurd rfl ·), fun _ => slotRead_slotWrite_other b⟩
  · exact ⟨(·.elim (absurd rfl) (absurd rfl)), fun _ => .inl hpop, (absurd rfl ·), (absurd rfl ·), fun _ _ => rfl⟩
  · exact ⟨(·.elim (absurd rfl) (absurd rfl)), fun _ => .inr hflush, (absurd rfl ·), (absurd rfl ·), fun _ _ => rfl⟩
  · exact ⟨(·.elim (absurd rfl) (absurd rfl)), (absurd rfl ·), (absurd rfl ·), fun _ => ⟨n, rfl⟩, fun _ _ => rfl⟩
  · exact ⟨(·.elim (absurd rfl) (absurd rfl)), (absurd rfl ·), fun _ => ⟨n, rfl⟩, (absurd rfl ·), fun _ _ => rfl⟩
  · exact ⟨(·.elim (absurd rfl) (absurd rfl)), (absurd rfl ·), (absurd rfl ·), (absurd rfl ·), fun _ _ => rfl⟩

/-- A step of `n` within reach leads no further than the index. -/
theorem ringDist_advanceBy_le {n : Nat} {a b : Index} (hn : n ≤ ringDist a b) :
    ringDist a (advanceBy a n) ≤ ringDist a b := by
  rwa [ringDist_advanceBy a (hn.trans (ringDist_le a b))]

/-- Settles O6: a view that has moved was moved by its synchroniser, within reach. -/
theorem viewsNeverPassTheirIndexNorGoBack : Obligations.ViewsNeverPassTheirIndexNorGoBack := by
  intro s t e hreset h
  obtain ⟨_, _, hsyncr, hsyncw, _⟩ := eachPieceOfStateHasOneWriter s t e hreset h
  constructor
  · by_cases hkept : t.rdv = s.rdv
    · rw [hkept, ringDist_self]
      exact Nat.zero_le _
    · obtain ⟨n, rfl⟩ := hsyncr hkept
      obtain ⟨_, hn, rfl⟩ := stepSyncr_cases h
      exact ringDist_advanceBy_le hn
  · by_cases hkept : t.wrv = s.wrv
    · rw [hkept, ringDist_self]
      exact Nat.zero_le _
    · obtain ⟨n, rfl⟩ := hsyncw hkept
      obtain ⟨_, hn, rfl⟩ := stepSyncw_cases h
      exact ringDist_advanceBy_le hn

end Sys2Proof.Machine

/-! The frames of the operations (spec 20_memory.md R37): what each port leaves alone, that steps of P and C commute
(R37 (4)) and that steps of K commute with everything but a reset (R23); and the complete list of the outcomes that are
not OK (60_exceptions.md R100). -/

namespace Sys2Proof.Machine

/-! ### The frame of every operation (R37 (3)) -/

/-- Settles O16: PUSH with room, POP with a byte, FLUSH, and an operation that only answers, on each of the three
ports. -/
theorem requestsLeaveTheRestAlone : Obligations.RequestsLeaveTheRestAlone := by
  intro i s t h
  rcases exec_cases h with ⟨b, rfl, _, rfl⟩ | ⟨rfl, _, b, _, rfl⟩ | ⟨rfl, rfl⟩ | ⟨r, port, _, rfl⟩ |
    ⟨r, port, _, rfl⟩ | ⟨r, port, _, rfl⟩
  · exact ⟨rfl, rfl, rfl, rfl, rfl, rfl, rfl, fun _ => rfl, fun hp => absurd rfl hp, fun _ => rfl, fun _ _ => rfl,
      fun hpush => absurd rfl (hpush b), fun _ => slotRead_slotWrite_other b⟩
  · exact ⟨rfl, rfl, rfl, rfl, rfl, rfl, rfl, fun _ => rfl, fun _ => rfl, fun hp => absurd rfl hp,
      fun hpop => absurd rfl hpop, fun _ => ⟨rfl, fun _ => rfl⟩, fun _ _ => rfl⟩
  · exact ⟨rfl, rfl, rfl, rfl, rfl, rfl, rfl, fun _ => rfl, fun _ => rfl, fun hp => absurd rfl hp,
      fun _ hflush => absurd rfl hflush, fun _ => ⟨rfl, fun _ => rfl⟩, fun _ _ => rfl⟩
  · exact ⟨rfl, rfl, rfl, rfl, rfl, rfl, rfl, fun hp => absurd port hp, fun _ => rfl, fun _ => rfl, fun _ _ => rfl,
      fun _ => ⟨rfl, fun _ => rfl⟩, fun _ _ => rfl⟩
  · exact ⟨rfl, rfl, rfl, rfl, rfl, rfl, rfl, fun _ => rfl, fun hp => absurd port hp, fun _ => rfl, fun _ _ => rfl,
      fun _ => ⟨rfl, fun _ => rfl⟩, fun _ _ => rfl⟩
  · exact ⟨rfl, rfl, rfl, rfl, rfl, rfl, rfl, fun _ => rfl, fun _ => rfl, fun hp => absurd port hp, fun _ _ => rfl,
      fun _ => ⟨rfl, fun _ => rfl⟩, fun _ _ => rfl⟩

/-- What no operation writes: the views, the reset lines and the schedule. -/
structure SameSurroundings (s t : State) : Prop where
  rdv : t.rdv = s.rdv
  wrv : t.wrv = s.wrv
  rstN : t.rstN = s.rstN
  upK : t.upK = s.upK
  upP : t.upP = s.upP
  upC : t.upC = s.upC
  schedule : t.schedule = s.schedule

namespace SameSurroundings

variable {s t u : State}

theorem symm (h : SameSurroundings s t) : SameSurroundings t s :=
  ⟨h.rdv.symm, h.wrv.symm, h.rstN.symm, h.upK.symm, h.upP.symm, h.upC.symm, h.schedule.symm⟩

theorem trans (h : SameSurroundings s t) (h' : SameSurroundings t u) : SameSurroundings s u :=
  ⟨h'.rdv.trans h.rdv, h'.wrv.trans h.wrv, h'.rstN.trans h.rstN, h'.upK.trans h.upK, h'.upP.trans h.upP,
    h'.upC.trans h.upC, h'.schedule.trans h.schedule⟩

theorem outOfReset (h : SameSurroundings s t) (ho : s.outOfReset = true) : t.outOfReset = true := by
  rw [State.outOfReset, h.rstN, h.upK, h.upP, h.upC]
  exact ho

/-- With the surroundings, the memory, the two indices and the three responses make up a state. -/
theorem eq_of_fields (h : SameSurroundings s t) (hmem : t.mem = s.mem) (hwr : t.wr = s.wr) (hrd : t.rd = s.rd)
    (hk : t.krsp = s.krsp) (hp : t.prsp = s.prsp) (hc : t.crsp = s.crsp) : t = s := by
  obtain ⟨hrdv, hwrv, hrstN, hupK, hupP, hupC, hschedule⟩ := h
  cases s
  cases t
  simp only at *
  subst_vars
  rfl

end SameSurroundings

theorem sameSurroundings_of_exec {i : Instr} {s t : State} (h : exec i s = .next t) : SameSurroundings s t := by
  obtain ⟨hrdv, hwrv, hrstN, hupK, hupP, hupC, hschedule, -⟩ := requestsLeaveTheRestAlone i s t h
  exact ⟨hrdv, hwrv, hrstN, hupK, hupP, hupC, hschedule⟩

section
variable {i j : Instr} {s t u : State}

theorem krsp_of_exec (hport : i.port ≠ .K) (h : exec i s = .next t) : t.krsp = s.krsp := by
  obtain ⟨-, -, -, -, -, -, -, hk, -⟩ := requestsLeaveTheRestAlone i s t h
  exact hk hport

theorem prsp_of_exec (hport : i.port ≠ .P) (h : exec i s = .next t) : t.prsp = s.prsp := by
  obtain ⟨-, -, -, -, -, -, -, -, hp, -⟩ := requestsLeaveTheRestAlone i s t h
  exact hp hport

theorem crsp_of_exec (hport : i.port ≠ .C) (h : exec i s = .next t) : t.crsp = s.crsp := by
  obtain ⟨-, -, -, -, -, -, -, -, -, hc, -⟩ := requestsLeaveTheRestAlone i s t h
  exact hc hport

/-- Only operations of port C move `RD`. -/
theorem rd_of_exec (hport : i.port ≠ .C) (h : exec i s = .next t) : t.rd = s.rd := by
  obtain ⟨-, -, -, -, -, -, -, -, -, -, hrd, -⟩ := requestsLeaveTheRestAlone i s t h
  exact hrd (fun e => hport (e ▸ rfl)) (fun e => hport (e ▸ rfl))

/-- Only operations of port P move `WR`. -/
theorem wr_of_exec (hport : i.port ≠ .P) (h : exec i s = .next t) : t.wr = s.wr := by
  obtain ⟨-, -, -, -, -, -, -, -, -, -, -, hwr, -⟩ := requestsLeaveTheRestAlone i s t h
  exact (hwr fun b e => hport (e ▸ rfl)).1

/-! ### Steps of P and C commute (R37 (4)) -/

/-- The operations of port P leave to the consumer what it reads: `RD`, `WRV` and the part of the
contents that it sees. -/
theorem exec_portP_keeps_consumer (hi : RingInv s) (hport : i.port = .P) (h : exec i s = .next t) :
    RingInv t ∧ t.rd = s.rd ∧ t.wrv = s.wrv ∧ visible t = visible s := by
  rcases exec_cases h with ⟨b, rfl, _⟩ | ⟨rfl, _⟩ | ⟨rfl, _⟩ | ha
  · exact exec_push_keeps_consumer hi h
  · cases hport
  · cases hport
  · have hsame := ha.sameArch
    have hcontents := contents_congr hsame
    obtain ⟨_, _, hrd, _, hwrv⟩ := id hsame
    exact ⟨hi.congr hsame, hrd, hwrv, by rw [visible, visible, hcontents, hrd, hwrv]⟩

/-- An operation of P and one of C, both served in `s`, are served one after the other in either order, with one and the
same result: each reads nothing that the other writes. -/
theorem exec_portP_portC_comm (hi : RingInv s) (hti : RingInv t) (hip : i.port = .P) (hjc : j.port = .C)
    (ht : exec i s = .next t) (hu : exec j s = .next u) : ∃ v, exec j t = .next v ∧ exec i u = .next v := by
  obtain ⟨_, hrd, hwrv, hvisible⟩ := exec_portP_keeps_consumer hi hip ht
  obtain ⟨hmem, hwr, hrdv⟩ := exec_portC_keeps_producer hjc hu
  obtain ⟨v, hv, hvcrsp, hvrd⟩ := exec_portC_congr hi hti hrd hwrv hvisible hjc hu
  obtain ⟨w, hw, hwprsp, hwwr, hwmem⟩ := exec_portP_congr hmem hwr hrdv hip ht
  obtain ⟨hvmem, hvwr, _⟩ := exec_portC_keeps_producer hjc hv
  have hik : i.port ≠ .K := by rw [hip]; decide
  have hic : i.port ≠ .C := by rw [hip]; decide
  have hjk : j.port ≠ .K := by rw [hjc]; decide
  have hjp : j.port ≠ .P := by rw [hjc]; decide
  have hsurr : SameSurroundings w v :=
    ((sameSurroundings_of_exec hu).trans (sameSurroundings_of_exec hw)).symm.trans
      ((sameSurroundings_of_exec ht).trans (sameSurroundings_of_exec hv))
  have hkrsp : v.krsp = w.krsp := by
    rw [krsp_of_exec hjk hv, krsp_of_exec hik ht, krsp_of_exec hik hw, krsp_of_exec hjk hu]
  have heq : v = w := hsurr.eq_of_fields (hvmem.trans hwmem.symm) (hvwr.trans hwwr.symm)
    (hvrd.trans (rd_of_exec hic hw).symm) hkrsp ((prsp_of_exec hjp hv).trans hwprsp.symm)
    (hvcrsp.trans (crsp_of_exec hic hw).symm)
  exact ⟨v, hv, heq ▸ hw⟩

end

/-- A word of a port is an operation of that port (R50, R52). -/
theorem decode_port (r : Request) : (decode r).port = r.port := by
  cases r with
  | k w => unfold decode decodeK; dsimp only; split_ifs <;> rfl
  | p w => unfold decode decodeP; dsimp only; split_ifs <;> rfl
  | c w => unfold decode decodeC; dsimp only; split_ifs <;> rfl

/-- Two requests one after the other, where the block stays out of reset. -/
theorem happenAll_two_requests {r r' : Request} {s t u : State} (ho : s.outOfReset = true)
    (ht : exec (decode r) s = .next t) (hu : exec (decode r') t = .next u) :
    happenAll [.request r, .request r'] s = .next u := by
  have ho' := (sameSurroundings_of_exec ht).outOfReset ho
  rw [happenAll_cons_of ((happen_request ho).trans ht), happenAll_cons_of ((happen_request ho').trans hu)]
  rfl

/-- Settles O14: under the invariant both operations complete, and they commute. -/
theorem producerAndConsumerStepsCommute : Obligations.ProducerAndConsumerStepsCommute := by
  intro s p c hi ho
  obtain ⟨t, ht⟩ := hi.exec_completes (decode (.p p))
  obtain ⟨u, hu⟩ := hi.exec_completes (decode (.c c))
  have hti : RingInv t := hi.happen ((happen_request ho).trans ht)
  obtain ⟨v, hv, hv'⟩ := exec_portP_portC_comm hi hti (decode_port (.p p)) (decode_port (.c c)) ht hu
  exact ⟨v, happenAll_two_requests ho ht hv, happenAll_two_requests ho hu hv'⟩

/-! ### Steps of K commute with everything but a reset (R23) -/

/-- The outcome with its next state changed, if it has one. -/
def onNext (f : State → State) : Host.Outcome State Fault Refusal → Host.Outcome State Fault Refusal
  | .next s => .next (f s)
  | .fault x => .fault x
  | .refused x => .refused x

/-- An operation of port K answers a response that does not depend on the state, and does nothing else. -/
theorem exec_portK {i : Instr} (hport : i.port = .K) : ∃ r, ∀ s, exec i s = .next (respondK r s) := by
  cases i with
  | nopK | conv | conv3 | rsvdK => exact ⟨_, fun _ => rfl⟩
  | nopP | push | qfullP | qemptyP | rsvdP | nopC | pop | qfullC | qemptyC | flush | rsvdC5 | rsvdC6 | rsvdC7 =>
    cases hport

/-- No operation of another port reads or writes `KRSP`. -/
theorem exec_respondK {i : Instr} (hport : i.port ≠ .K) (r : KRsp) (s : State) :
    exec i (respondK r s) = onNext (respondK r) (exec i s) := by
  cases i with
  | push b =>
    cases hf : fullP s with
    | true => rw [exec_push_of_full b hf, exec_push_of_full (s := respondK r s) b hf]; rfl
    | false => rw [exec_push_of_room b hf, exec_push_of_room (s := respondK r s) b hf]; rfl
  | pop =>
    cases he : emptyC s with
    | true => rw [exec_pop_of_empty he, exec_pop_of_empty (s := respondK r s) he]; rfl
    | false =>
      cases hb : slotRead s.mem s.rd with
      | none =>
        rw [popOfAnUnwrittenSlotStops s (emptyC_eq_false_iff.mp he) hb,
          popOfAnUnwrittenSlotStops (respondK r s) (emptyC_eq_false_iff.mp he) hb]
        rfl
      | some b => rw [exec_pop_of_byte he hb, exec_pop_of_byte (s := respondK r s) he hb]; rfl
  | nopP | qfullP | qemptyP | rsvdP | nopC | qfullC | qemptyC | flush | rsvdC5 | rsvdC6 | rsvdC7 => rfl
  | nopK | conv | conv3 | rsvdK => exact absurd rfl hport

/-- No event away from port K reads or writes `KRSP`. -/
theorem happen_respondK {e : Event} (he : awayFrom .K e) (r : KRsp) (s : State) :
    happen e (respondK r s) = onNext (respondK r) (happen e s) := by
  obtain ⟨hreset, hasks⟩ := he
  cases e with
  | request q =>
    change serveRequest q (respondK r s) = onNext (respondK r) (serveRequest q s)
    have ho : (respondK r s).outOfReset = s.outOfReset := rfl
    rw [serveRequest, serveRequest, ho]
    split
    · exact exec_respondK (hasks _ rfl) r s
    · rfl
  | syncw n =>
    change stepSyncw n (respondK r s) = onNext (respondK r) (stepSyncw n s)
    rw [stepSyncw, stepSyncw, respondK_rstN, respondK_wrv, respondK_wr]
    split_ifs <;> rfl
  | syncr n =>
    change stepSyncr n (respondK r s) = onNext (respondK r) (stepSyncr n s)
    rw [stepSyncr, stepSyncr, respondK_rstN, respondK_rdv, respondK_rd]
    split_ifs <;> rfl
  | rstLow => exact absurd rfl hreset
  | rstHigh => rfl
  | leaveReset p =>
    change stepLeaveReset p (respondK r s) = onNext (respondK r) (stepLeaveReset p s)
    rw [stepLeaveReset, stepLeaveReset, respondK_rstN]
    split
    · cases p <;> rfl
    · rfl

/-- Of the events only a reset puts the block back in reset. -/
theorem outOfReset_of_happen {e : Event} {s t : State} (he : e ≠ .rstLow) (ho : s.outOfReset = true)
    (h : happen e s = .next t) : t.outOfReset = true := by
  rcases happen_cases h with ⟨r, _, _, hx⟩ | ⟨n, _, _, _, rfl⟩ | ⟨n, _, _, _, rfl⟩ | ⟨hr, _⟩ | ⟨_, rfl⟩ | ⟨p, _, _, rfl⟩
  · exact (sameSurroundings_of_exec hx).outOfReset ho
  · exact ho
  · exact ho
  · exact absurd hr he
  · simp_all [State.outOfReset]
  · cases p <;> simp_all [State.outOfReset]

/-- One event and then another that always goes on from the states the first leads to. -/
theorem happenAll_pair {e e' : Event} {s : State} {f : State → State}
    (h : ∀ u, happen e s = .next u → happen e' u = .next (f u)) : happenAll [e, e'] s = onNext f (happen e s) := by
  cases he : happen e s with
  | next u => rw [happenAll_cons_of he, happenAll_cons_of (h u he)]; rfl
  | fault x => simp only [happenAll, he]; rfl
  | refused x => simp only [happenAll, he]; rfl

/-- Settles O15: in either order the answer of port K stands in the state that the other event leads to. -/
theorem converterStepsCommuteWithTheQueue : Obligations.ConverterStepsCommuteWithTheQueue := by
  intro s t k e ho haway
  obtain ⟨r, hr⟩ := exec_portK (decode_port (.k k))
  have hk : ∀ u : State, u.outOfReset = true → happen (.request (.k k)) u = .next (respondK r u) :=
    fun u hu => (happen_request hu).trans (hr u)
  have hfirst : happenAll [.request (.k k), e] s = happen e (respondK r s) := by
    rw [happenAll_cons_of (hk s ho)]
    cases he : happen e (respondK r s) <;> simp only [happenAll, he]
  have hlast : happenAll [e, .request (.k k)] s = onNext (respondK r) (happen e s) :=
    happenAll_pair fun u hu => hk u (outOfReset_of_happen haway.1 ho hu)
  rw [hfirst, hlast, happen_respondK haway]

/-! ### The status of every operation (R100) -/

/-- The status with which an operation answers. -/
def answeredStatus (i : Instr) (s : State) : Status :=
  match i with
  | .push _ => if fullP s then .fail else .ok
  | .pop => if emptyC s then .fail else .ok
  | .rsvdK | .rsvdP | .rsvdC5 | .rsvdC6 | .rsvdC7 => .illegal
  | _ => .ok

theorem statusOn_of_exec {i : Instr} {s t : State} (h : exec i s = .next t) :
    statusOn i.port t = some (answeredStatus i s) := by
  cases i with
  | push b =>
    rcases execPush_cases h with ⟨hf, rfl⟩ | ⟨hf, rfl⟩
    · rw [answeredStatus, hf]; rfl
    · rw [answeredStatus, hf]; rfl
  | pop =>
    rcases execPop_cases h with ⟨he, rfl⟩ | ⟨he, b, _, rfl⟩
    · rw [answeredStatus, he]; rfl
    · rw [answeredStatus, he]; rfl
  | nopK | conv | conv3 | rsvdK | nopP | qfullP | qemptyP | rsvdP | nopC | qfullC | qemptyC | flush | rsvdC5 | rsvdC6
  | rsvdC7 => cases h; rfl

theorem answeredStatus_eq_fail_iff {i : Instr} {s : State} : answeredStatus i s = .fail ↔
    (∃ b, i = .push b) ∧ s.wr + 1 = s.rdv ∨ i = .pop ∧ s.rd = s.wrv := by
  rw [← fullP_eq_true_iff, ← emptyC_eq_true_iff]
  cases i <;> simp [answeredStatus]

theorem answeredStatus_eq_illegal_iff {i : Instr} {s : State} : answeredStatus i s = .illegal ↔
    i = .rsvdK ∨ i = .rsvdP ∨ i = .rsvdC5 ∨ i = .rsvdC6 ∨ i = .rsvdC7 := by
  cases i with
  | push b => cases hf : fullP s <;> simp [answeredStatus, hf]
  | pop => cases he : emptyC s <;> simp [answeredStatus, he]
  | _ => simp [answeredStatus]

/-- Settles O56: the status of each operation, and the causes of the two that are not OK. -/
theorem onlyTheListedCausesAnswerNotOk : Obligations.OnlyTheListedCausesAnswerNotOk := by
  intro i s t h
  rw [statusOn_of_exec h, Option.some_inj, Option.some_inj]
  exact ⟨answeredStatus_eq_fail_iff, answeredStatus_eq_illegal_iff, Option.some_ne_none _⟩

end Sys2Proof.Machine

/-! The reset input (spec 70_reset_and_hazards.md R112 to R117), and what the two synchronisers are enabled to do
(43_cdc_synchronisers.md R89, R90, R99). -/

namespace Sys2Proof.Machine

/-! ### The reset input (R112 to R117) -/

/-- Settles O2: the reset state with `rst_n` low. -/
theorem drivingResetLowGivesResetValues : Obligations.DrivingResetLowGivesResetValues :=
  fun s => ⟨assertReset s, rfl, ⟨rfl, rfl, rfl, rfl, rfl⟩, rfl, rfl, rfl, rfl⟩

section
variable {s : State}

theorem happen_request_in_reset (ho : s.outOfReset = false) (r : Request) :
    happen (.request r) s = .refused (.requestInReset r.port) := by
  change serveRequest r s = _
  rw [serveRequest, ho]
  rfl

theorem outOfReset_of_low (hr : s.rstN = false) : s.outOfReset = false := by
  simp [State.outOfReset, hr]

theorem happen_syncw_of_low (hr : s.rstN = false) (n : Nat) : happen (.syncw n) s = .refused .syncInReset := if_pos hr

theorem happen_syncr_of_low (hr : s.rstN = false) (n : Nat) : happen (.syncr n) s = .refused .syncInReset := if_pos hr

theorem happen_leaveReset_of_low (hr : s.rstN = false) (p : Port) :
    happen (.leaveReset p) s = .refused (.releaseWhileLow p) := if_neg (Bool.eq_false_iff.mp hr)

theorem happen_leaveReset_of_high (hr : s.rstN = true) (p : Port) : happen (.leaveReset p) s = .next (domainUp p s) :=
  if_pos hr

end

/-- Settles O3: the refusal of each event. -/
theorem nothingIsServedWhileResetIsLow : Obligations.NothingIsServedWhileResetIsLow :=
  fun _ => ⟨happen_request_in_reset, fun hr =>
    ⟨outOfReset_of_low hr, happen_syncw_of_low hr, happen_syncr_of_low hr, happen_leaveReset_of_low hr⟩⟩

/-- The domain of port `p` has left reset. -/
def isUp (p : Port) (s : State) : Bool :=
  match p with
  | .K => s.upK
  | .P => s.upP
  | .C => s.upC

theorem isUp_domainUp_iff {p q : Port} {s : State} : isUp p (domainUp q s) = true ↔ p = q ∨ isUp p s = true := by
  cases p <;> cases q <;> simp [isUp]

theorem outOfReset_iff {s : State} : s.outOfReset = true ↔ s.rstN = true ∧ ∀ p, isUp p s = true := by
  constructor
  · intro h
    simp only [State.outOfReset, Bool.and_eq_true] at h
    obtain ⟨⟨⟨hr, hk⟩, hp⟩, hc⟩ := h
    exact ⟨hr, fun p => by cases p <;> assumption⟩
  · rintro ⟨hr, hup⟩
    have hk : s.upK = true := hup .K
    have hp : s.upP = true := hup .P
    have hc : s.upC = true := hup .C
    simp [State.outOfReset, hr, hk, hp, hc]

/-- Three different ports are all there are. -/
theorem port_eq_of_distinct {a b c : Port} (hab : a ≠ b) (hbc : b ≠ c) (hac : a ≠ c) (p : Port) :
    p = c ∨ p = b ∨ p = a := by
  cases a <;> cases b <;> cases c <;> cases p <;> simp_all

/-- After a reset, the domains of `a` and `b` have left it, in this order. -/
def twoReleased (a b : Port) (s : State) : State := domainUp b (domainUp a (releaseReset (assertReset s)))

section
variable {a b c : Port} (s : State)

theorem happenAll_twoReleased :
    happenAll [.rstLow, .rstHigh, .leaveReset a, .leaveReset b] s = .next (twoReleased a b s) := by
  have ha : happen (.leaveReset a) (releaseReset (assertReset s)) = .next (domainUp a (releaseReset (assertReset s))) :=
    happen_leaveReset_of_high rfl a
  have hb : happen (.leaveReset b) (domainUp a (releaseReset (assertReset s))) = .next (twoReleased a b s) :=
    happen_leaveReset_of_high (domainUp_rstN _ _) b
  rw [happenAll_cons_of (u := assertReset s) rfl, happenAll_cons_of (u := releaseReset (assertReset s)) rfl,
    happenAll_cons_of ha, happenAll_cons_of hb]
  rfl

theorem rstN_twoReleased : (twoReleased a b s).rstN = true := by
  rw [twoReleased, domainUp_rstN, domainUp_rstN]
  rfl

theorem isUp_twoReleased_iff (p : Port) : isUp p (twoReleased a b s) = true ↔ p = b ∨ p = a := by
  have hlow : ¬ isUp p (releaseReset (assertReset s)) = true := by cases p <;> exact Bool.false_ne_true
  rw [twoReleased, isUp_domainUp_iff, isUp_domainUp_iff, or_iff_left hlow]

theorem sameArch_domainUp (p : Port) : sameArch s (domainUp p s) :=
  ⟨domainUp_mem p s, domainUp_wr p s, domainUp_rd p s, domainUp_rdv p s, domainUp_wrv p s⟩

theorem sameArch_reset_bringUp : sameArch State.reset (domainUp c (twoReleased a b s)) := by
  simp [sameArch, twoReleased, State.reset]

end

/-- Settles O4: with two domains released the third is still in reset; with all three released the block is out of
it. -/
theorem bringUpInAnyOrderReachesService : Obligations.BringUpInAnyOrderReachesService := by
  intro s a b c hab hbc hac
  have hin : (twoReleased a b s).outOfReset = false := by
    rw [← Bool.not_eq_true, outOfReset_iff]
    rintro ⟨_, hup⟩
    rcases (isUp_twoReleased_iff s c).mp (hup c) with hcb | hca
    · exact hbc hcb.symm
    · exact hac hca.symm
  have hout : (domainUp c (twoReleased a b s)).outOfReset = true := by
    refine outOfReset_iff.mpr ⟨(domainUp_rstN _ _).trans (rstN_twoReleased s), fun p => ?_⟩
    rw [isUp_domainUp_iff, isUp_twoReleased_iff]
    exact port_eq_of_distinct hab hbc hac p
  exact ⟨_, _, happenAll_twoReleased s, hin, happen_request_in_reset hin,
    happen_leaveReset_of_high (rstN_twoReleased s) c, hout, sameArch_reset_bringUp s,
    RingInv.reset.congr (sameArch_reset_bringUp s), fun _ => happen_request hout⟩

/-! ### The synchronisers (R89, R90, R99) -/

section
variable {s : State} {n : Nat}

theorem happen_syncr_of_le (hr : s.rstN = true) (hn : n ≤ ringDist s.rdv s.rd) :
    happen (.syncr n) s = .next (setRdv (advanceBy s.rdv n) s) := by
  change stepSyncr n s = _
  rw [stepSyncr, hr, if_neg (by decide), if_pos hn]

/-- SYNCR can step all the way to `RD`. -/
theorem happen_syncr_to_rd (hr : s.rstN = true) : happen (.syncr (ringDist s.rdv s.rd)) s = .next (setRdv s.rd s) := by
  rw [happen_syncr_of_le hr le_rfl, advanceBy_ringDist]

theorem happen_syncw_of_lt (hr : s.rstN = true) (hn : ringDist s.wrv s.wr < n) :
    happen (.syncw n) s = .refused (.syncwNotEnabled n) := by
  change stepSyncw n s = _
  rw [stepSyncw, hr, if_neg (by decide), if_neg (Nat.not_le.mpr hn)]

theorem happen_syncr_of_lt (hr : s.rstN = true) (hn : ringDist s.rdv s.rd < n) :
    happen (.syncr n) s = .refused (.syncrNotEnabled n) := by
  change stepSyncr n s = _
  rw [stepSyncr, hr, if_neg (by decide), if_neg (Nat.not_le.mpr hn)]

theorem happen_syncw_zero (hr : s.rstN = true) : happen (.syncw 0) s = .next s := by
  rw [happen_syncw_of_le hr (Nat.zero_le _), advanceBy_zero]
  rfl

theorem happen_syncr_zero (hr : s.rstN = true) : happen (.syncr 0) s = .next s := by
  rw [happen_syncr_of_le hr (Nat.zero_le _), advanceBy_zero]
  rfl

end

/-- Settles O48: SYNCW within reach, beyond it, and with `n` = 0. -/
theorem syncwAdvancesItsViewWithinReach : Obligations.SyncwAdvancesItsViewWithinReach :=
  fun _ _ hr => ⟨happen_syncw_of_le hr, happen_syncw_of_lt hr, happen_syncw_zero hr⟩

/-- Settles O49: SYNCR within reach, beyond it, and with `n` = 0. -/
theorem syncrAdvancesItsViewWithinReach : Obligations.SyncrAdvancesItsViewWithinReach :=
  fun _ _ hr => ⟨happen_syncr_of_le hr, happen_syncr_of_lt hr, happen_syncr_zero hr⟩

/-- Settles O55: SYNCW all the way to `WR`, then SYNCR all the way to `RD`. -/
theorem settleSettles : Obligations.SettleSettles := by
  intro s hr
  have hsyncr : happen (.syncr (ringDist s.rdv s.rd)) (setWrv s.wr s) = .next (setRdv s.rd (setWrv s.wr s)) :=
    happen_syncr_to_rd (s := setWrv s.wr s) hr
  refine ⟨setRdv s.rd (setWrv s.wr s), ?_, ⟨rfl, rfl⟩, rfl⟩
  change happenAll [.syncw (ringDist s.wrv s.wr), .syncr (ringDist s.rdv s.rd)] s = _
  rw [happenAll_cons_of (happen_syncw_to_wr hr), happenAll_cons_of hsyncr]
  rfl

end Sys2Proof.Machine

/-! The encoder and the decoder (spec 30_encoding.md). Each operand stands in its field of the request word, and encoding
what was decoded keeps the fields that have a meaning (R41 to R43, R50). Each field of a response word is read off the
word (R44 to R46). A 16-bit operand of a trace line is its two bytes, low byte first (R54, R55). -/

namespace Sys2Proof

open Machine

/-! ### Decoding the word of an instruction (R41 to R43, R50) -/

theorem decode_encode_conv (lo hi : Byte) : decode (encode (.conv lo hi)) = .conv lo hi := by
  have hcode : (convWord lo hi).extractLsb' 48 2 = 1#2 := by
    simp (disch := decide) only [convWord, extract_append_high, extract_whole, Nat.reduceSub]
  have hlo : (convWord lo hi).extractLsb' 0 8 = lo := by
    simp (disch := decide) only [convWord, extract_append_low, extract_whole]
  have hhi : (convWord lo hi).extractLsb' 8 8 = hi := by
    simp (disch := decide) only [convWord, extract_append_low, extract_append_high, extract_whole, Nat.reduceSub]
  rw [encode, decode_conv hcode, hlo, hhi]

theorem decode_encode_conv3 (b0 b1 b2 b3 b4 b5 : Byte) :
    decode (encode (.conv3 b0 b1 b2 b3 b4 b5)) = .conv3 b0 b1 b2 b3 b4 b5 := by
  have hcode : (conv3Word b0 b1 b2 b3 b4 b5).extractLsb' 48 2 = 2#2 := by
    simp (disch := decide) only [conv3Word, extract_append_high, extract_whole, Nat.reduceSub]
  rw [encode, decode_conv3 hcode]
  simp (disch := decide) only [conv3Word, extract_append_low, extract_append_high, extract_whole, Nat.reduceSub]

/-- Settles O18: the three operations with operands have them in the fields of their words; the others have none. -/
theorem decodeOfEncodeIsTheInstruction : Obligations.DecodeOfEncodeIsTheInstruction := by
  intro i _
  cases i with
  | conv lo hi => exact decode_encode_conv lo hi
  | conv3 b0 b1 b2 b3 b4 b5 => exact decode_encode_conv3 b0 b1 b2 b3 b4 b5
  | push b => exact decode_encode_push b
  | nopK | rsvdK | nopP | qfullP | qemptyP | rsvdP | nopC | pop | qfullC | qemptyC | flush | rsvdC5 | rsvdC6 | rsvdC7 =>
    rfl

/-- Settles O17: each word has the code of its operation in its field, and the operands where the tables say. -/
theorem wordsDecodeAsTheTablesSay : Obligations.WordsDecodeAsTheTablesSay :=
  ⟨decode_conv (w := 0x10000000000CC#50) (by decide), decode_conv3 (w := 0x2F000FFFF00CC#50) (by decide),
    decode_rsvdK (by decide), decode_push (w := 0x141#11) (by decide), decode_qfullP (by decide),
    decode_rsvdP (by decide), rfl, rfl⟩

/-! ### Fields and masks of a word -/

/-- A bit of a field is the bit of the word that it stands for. -/
theorem getLsbD_field {n s k i : Nat} (w : BitVec n) (hlow : s ≤ i) (hhigh : i < s + k) :
    (w.extractLsb' s k).getLsbD (i - s) = w.getLsbD i := by
  have hin : i - s < k := by omega
  simp [hin, Nat.add_sub_cancel' hlow]

/-- A word is its two fields put together. -/
theorem append_fields {n m : Nat} (w : BitVec (n + m)) : w.extractLsb' m n ++ w.extractLsb' 0 m = w := by
  rw [BitVec.extractLsb'_append_extractLsb'_eq_extractLsb' (Nat.zero_add m).symm, extract_whole]

/-- A mask of the high field clears the low one. -/
theorem and_append_zero {n m : Nat} (w : BitVec (n + m)) (a : BitVec n) :
    w &&& (a ++ 0#m) = (w.extractLsb' m n &&& a) ++ 0#m := by
  conv_lhs => rw [← append_fields w]
  rw [BitVec.and_append, BitVec.and_zero]

/-! ### Encoding a decoded word (R41 to R43) -/

/-- The codes 1 and 2 at bits 48 and 49. -/
theorem getLsbD_code {i : Nat} (hlow : 48 ≤ i) (hhigh : i < 50) :
    (1#2).getLsbD (i - 48) = decide (i = 48) ∧ (2#2).getLsbD (i - 48) = decide (i = 49) := by
  obtain rfl | rfl : i = 48 ∨ i = 49 := by omega
  all_goals decide

/-- The mask of CONV bit by bit: the two bytes and the code. -/
theorem getLsbD_convMask : ∀ i < 50, (0x300000000FFFF#50).getLsbD i = decide (i < 16 ∨ 48 ≤ i) := by decide

section
variable {w : BitVec 50}

/-- The mask of port K that keeps the code alone. -/
theorem and_kopMask (w : BitVec 50) : w &&& 0x3000000000000#50 = w.extractLsb' 48 2 ++ 0#48 := by
  have h := and_append_zero (n := 2) (m := 48) w (BitVec.allOnes 2)
  rwa [BitVec.and_allOnes] at h

theorem convWord_fields (h : w.extractLsb' 48 2 = 1#2) :
    convWord (w.extractLsb' 0 8) (w.extractLsb' 8 8) = w &&& 0x300000000FFFF#50 := by
  apply BitVec.eq_of_getLsbD_eq
  intro i hi
  rw [convWord_bit, BitVec.getLsbD_and, getLsbD_convMask i hi]
  split_ifs with hlo hhi
  · have hbit : (w.extractLsb' 0 8).getLsbD i = w.getLsbD i := getLsbD_field (s := 0) w (Nat.zero_le i) (by omega)
    have hkept : i < 16 ∨ 48 ≤ i := by omega
    rw [hbit, decide_eq_true hkept, Bool.and_true]
  · have hkept : i < 16 ∨ 48 ≤ i := .inl hhi
    rw [getLsbD_field w (by omega) (by omega), decide_eq_true hkept, Bool.and_true]
  · by_cases hkop : 48 ≤ i
    · have hkept : i < 16 ∨ 48 ≤ i := .inr hkop
      rw [decide_eq_true hkept, Bool.and_true, ← getLsbD_field w hkop (by omega : i < 48 + 2), h,
        (getLsbD_code hkop hi).1]
    · have hcleared : ¬ (i < 16 ∨ 48 ≤ i) := by omega
      rw [decide_eq_false hcleared, Bool.and_false, decide_eq_false (by omega)]

theorem conv3Word_fields (h : w.extractLsb' 48 2 = 2#2) :
    conv3Word (w.extractLsb' 0 8) (w.extractLsb' 8 8) (w.extractLsb' 16 8) (w.extractLsb' 24 8) (w.extractLsb' 32 8)
      (w.extractLsb' 40 8) = w := by
  apply BitVec.eq_of_getLsbD_eq
  intro i hi
  rw [conv3Word_bit]
  split_ifs
  · exact getLsbD_field (s := 0) w (by omega) (by omega)
  · exact getLsbD_field w (by omega) (by omega)
  · exact getLsbD_field w (by omega) (by omega)
  · exact getLsbD_field w (by omega) (by omega)
  · exact getLsbD_field w (by omega) (by omega)
  · exact getLsbD_field w (by omega) (by omega)
  · have hkop : 48 ≤ i := by omega
    rw [← getLsbD_field w hkop (by omega : i < 48 + 2), h, (getLsbD_code hkop hi).2]

end

theorem kop_cases (c : BitVec 2) : c = 0#2 ∨ c = 1#2 ∨ c = 2#2 ∨ c = 3#2 := by
  revert c
  decide

theorem encode_decode_k (w : BitVec 50) : encode (decode (.k w)) = .k (w &&&
    (if w.extractLsb' 48 2 = 1#2 then 0x300000000FFFF#50
      else if w.extractLsb' 48 2 = 2#2 then 0x3FFFFFFFFFFFF#50 else 0x3000000000000#50)) := by
  rcases kop_cases (w.extractLsb' 48 2) with h | h | h | h
  · rw [decode_nopK h, h, if_neg (by decide), if_neg (by decide), and_kopMask, h]
    rfl
  · rw [decode_conv h, if_pos h, encode, convWord_fields h]
  · rw [decode_conv3 h, h, if_neg (by decide), if_pos rfl, encode, conv3Word_fields h]
    exact congrArg Request.k BitVec.and_allOnes.symm
  · rw [decode_rsvdK h, h, if_neg (by decide), if_neg (by decide), and_kopMask, h]
    rfl

/-- The masks of port P that keep the code alone: all of it, or for the reserved codes its top bit. -/
theorem and_popMasks (w : BitVec 11) : w &&& 0x700#11 = w.extractLsb' 8 3 ++ 0#8 ∧
    w &&& 0x400#11 = (w.extractLsb' 8 3 &&& 4#3) ++ 0#8 := by
  have h := and_append_zero (n := 3) (m := 8) w (BitVec.allOnes 3)
  rw [BitVec.and_allOnes] at h
  exact ⟨h, and_append_zero (n := 3) (m := 8) w 4#3⟩

/-- Bit 10 of a word of port P tells the reserved codes from the four operations (R75). -/
theorem pop_cases (c : BitVec 3) : c.getLsbD 2 = true ∧ c &&& 4#3 = 4#3 ∧ c ≠ 1#3 ∨
    c.getLsbD 2 = false ∧ (c = 0#3 ∨ c = 1#3 ∨ c = 2#3 ∨ c = 3#3) := by
  revert c
  decide

theorem encode_decode_p (w : BitVec 11) : encode (decode (.p w)) = .p (w &&&
    (if w.extractLsb' 8 3 = 1#3 then 0x7FF#11 else if w.getLsbD 10 then 0x400#11 else 0x700#11)) := by
  have htop : w.getLsbD 10 = (w.extractLsb' 8 3).getLsbD 2 := (getLsbD_field w (by decide) (by decide)).symm
  obtain ⟨hcode, hcodeTop⟩ := and_popMasks w
  rcases pop_cases (w.extractLsb' 8 3) with ⟨hbit, hand, hne⟩ | ⟨hbit, h⟩
  · rw [← htop] at hbit
    rw [decode_rsvdP hbit, if_neg hne, if_pos hbit, hcodeTop, hand]
    rfl
  · rw [← htop] at hbit
    rcases h with h | h | h | h
    · rw [decode_nopP h, h, if_neg (by decide), hbit, if_neg (by decide), hcode, h]
      rfl
    · rw [decode_push h, if_pos h, encode, pushWord, ← h, append_fields (n := 3) (m := 8)]
      exact congrArg Request.p BitVec.and_allOnes.symm
    · rw [decode_qfullP h, h, if_neg (by decide), hbit, if_neg (by decide), hcode, h]
      rfl
    · rw [decode_qemptyP h, h, if_neg (by decide), hbit, if_neg (by decide), hcode, h]
      rfl

/-- The whole word of port C is its code. -/
theorem encode_decode_c (w : BitVec 3) : encode (decode (.c w)) = .c w := by
  revert w
  decide

/-- Settles O19: per port, by the code of the word. -/
theorem onlyIgnoredBitsAreDropped : Obligations.OnlyIgnoredBitsAreDropped :=
  ⟨encode_decode_k, encode_decode_p, encode_decode_c⟩

/-! ### The status codes (R45) -/

theorem statusOfCode_statusCode (st : Status) : statusOfCode (statusCode st) = .ok st := by
  cases st <;> rfl

theorem statusCode_ne_three (st : Status) : statusCode st ≠ 0b11#2 := by
  cases st <;> decide

/-- Settles O23: the codes of the three statuses, and the code that is none. -/
theorem statusCodesAreThree : Obligations.StatusCodesAreThree :=
  ⟨rfl, rfl, rfl, statusCode_ne_three, statusOfCode_statusCode, rfl⟩

/-! ### The fields of a response word (R44, R46) -/

/-- A field of one bit is that bit of the word. -/
theorem getLsbD_of_field_eq_ofBool {n s : Nat} {w : BitVec n} {b : Bool} (h : w.extractLsb' s 1 = BitVec.ofBool b) :
    w.getLsbD s = b := by
  rw [← getLsbD_field (k := 1) w le_rfl (Nat.lt_succ_self s), h, Nat.sub_self, BitVec.getLsbD_ofBool]
  rfl

section
variable (r : KRsp) (x : BitVec 290)

theorem encodeKRsp_kst : (encodeKRsp r x).extractLsb' 288 2 = statusCode r.kst := by
  simp (disch := decide) only [encodeKRsp, extract_append_high, extract_whole, Nat.reduceSub]

theorem encodeKRsp_int2 : (encodeKRsp r x).extractLsb' 224 64 = r.int2.getD (x.extractLsb' 224 64) := by
  simp (disch := decide) only [encodeKRsp, extract_append_low, extract_append_high, extract_whole, Nat.reduceSub]

theorem encodeKRsp_frac2 : (encodeKRsp r x).extractLsb' 192 32 = r.frac2.getD (x.extractLsb' 192 32) := by
  simp (disch := decide) only [encodeKRsp, extract_append_low, extract_append_high, extract_whole, Nat.reduceSub]

theorem encodeKRsp_int1 : (encodeKRsp r x).extractLsb' 128 64 = r.int1.getD (x.extractLsb' 128 64) := by
  simp (disch := decide) only [encodeKRsp, extract_append_low, extract_append_high, extract_whole, Nat.reduceSub]

theorem encodeKRsp_frac1 : (encodeKRsp r x).extractLsb' 96 32 = r.frac1.getD (x.extractLsb' 96 32) := by
  simp (disch := decide) only [encodeKRsp, extract_append_low, extract_append_high, extract_whole, Nat.reduceSub]

theorem encodeKRsp_int0 : (encodeKRsp r x).extractLsb' 32 64 = r.int0.getD (x.extractLsb' 32 64) := by
  simp (disch := decide) only [encodeKRsp, extract_append_low, extract_append_high, extract_whole, Nat.reduceSub]

theorem encodeKRsp_frac0 : (encodeKRsp r x).extractLsb' 0 32 = r.frac0.getD (x.extractLsb' 0 32) := by
  simp (disch := decide) only [encodeKRsp, extract_append_low, extract_whole]

end

section
variable (r : PRsp) (x : BitVec 3)

theorem encodePRsp_pst : (encodePRsp r x).extractLsb' 1 2 = statusCode r.pst := by
  simp (disch := decide) only [encodePRsp, extract_append_high, extract_whole, Nat.reduceSub]

theorem encodePRsp_pflag : (encodePRsp r x).getLsbD 0 = r.pflag.getD (x.getLsbD 0) := by
  apply getLsbD_of_field_eq_ofBool
  simp (disch := decide) only [encodePRsp, extract_append_low, extract_whole]

end

section
variable (r : CRsp) (x : BitVec 11)

theorem encodeCRsp_cst : (encodeCRsp r x).extractLsb' 9 2 = statusCode r.cst := by
  simp (disch := decide) only [encodeCRsp, extract_append_high, extract_whole, Nat.reduceSub]

theorem encodeCRsp_cflag : (encodeCRsp r x).getLsbD 8 = r.cflag.getD (x.getLsbD 8) := by
  apply getLsbD_of_field_eq_ofBool
  simp (disch := decide) only [encodeCRsp, extract_append_low, extract_append_high, extract_whole, Nat.reduceSub]

theorem encodeCRsp_cdata : (encodeCRsp r x).extractLsb' 0 8 = r.cdata.getD (x.extractLsb' 0 8) := by
  simp (disch := decide) only [encodeCRsp, extract_append_low, extract_whole]

end

/-- A field that has a value shows it, whatever the filler. -/
theorem eq_of_eq_getD {α : Type} {a b v : α} {o : Option α} (h : a = o.getD b) (ho : o = some v) : a = v := by
  rw [h, ho, Option.getD_some]

/-- Settles O21: each field of the word is the response's, or the filler's where the response has none. -/
theorem responseFieldsStandWhereTheTablesSay : Obligations.ResponseFieldsStandWhereTheTablesSay := by
  refine ⟨fun r x => ⟨encodeKRsp_kst r x, ?_, ?_, ?_, ?_, ?_, ?_⟩, fun r x => ⟨encodePRsp_pst r x, ?_⟩,
    fun r x => ⟨encodeCRsp_cst r x, ?_, ?_⟩⟩
  · exact fun _ => eq_of_eq_getD (encodeKRsp_int2 r x)
  · exact fun _ => eq_of_eq_getD (encodeKRsp_frac2 r x)
  · exact fun _ => eq_of_eq_getD (encodeKRsp_int1 r x)
  · exact fun _ => eq_of_eq_getD (encodeKRsp_frac1 r x)
  · exact fun _ => eq_of_eq_getD (encodeKRsp_int0 r x)
  · exact fun _ => eq_of_eq_getD (encodeKRsp_frac0 r x)
  · exact fun _ => eq_of_eq_getD (encodePRsp_pflag r x)
  · exact fun _ => eq_of_eq_getD (encodeCRsp_cflag r x)
  · exact fun _ => eq_of_eq_getD (encodeCRsp_cdata r x)

/-- A field that has a value exactly where it is valid is read back. -/
theorem whenValid_getD {α : Type} {valid : Bool} {o : Option α} (h : o.isSome = valid) (b : α) :
    whenValid valid (o.getD b) = o := by
  subst h
  cases o with
  | none => rfl
  | some a => rfl

section
variable {i : Instr}

theorem decodeKRsp_encodeKRsp {r : KRsp} (hwf : r.wf i = true) (x : BitVec 290) :
    decodeKRsp i (encodeKRsp r x) = .ok r := by
  simp only [KRsp.wf, Bool.and_eq_true, beq_iff_eq] at hwf
  obtain ⟨⟨⟨⟨⟨hint0, hfrac0⟩, hint1⟩, hfrac1⟩, hint2⟩, hfrac2⟩ := hwf
  simp only [decodeKRsp, encodeKRsp_kst, statusOfCode_statusCode, encodeKRsp_int2, encodeKRsp_frac2, encodeKRsp_int1,
    encodeKRsp_frac1, encodeKRsp_int0, encodeKRsp_frac0, whenValid_getD hint0, whenValid_getD hfrac0,
    whenValid_getD hint1, whenValid_getD hfrac1, whenValid_getD hint2, whenValid_getD hfrac2]

theorem decodePRsp_encodePRsp {r : PRsp} (hwf : r.wf i = true) (x : BitVec 3) :
    decodePRsp i (encodePRsp r x) = .ok r := by
  have hflag := beq_iff_eq.mp hwf
  simp only [decodePRsp, encodePRsp_pst, statusOfCode_statusCode, encodePRsp_pflag, whenValid_getD hflag]

theorem decodeCRsp_encodeCRsp {r : CRsp} (hwf : r.wf i = true) (x : BitVec 11) :
    decodeCRsp i (encodeCRsp r x) = .ok r := by
  simp only [CRsp.wf, Bool.and_eq_true, beq_iff_eq] at hwf
  obtain ⟨hflag, hdata⟩ := hwf
  simp only [decodeCRsp, encodeCRsp_cst, statusOfCode_statusCode, encodeCRsp_cflag, encodeCRsp_cdata,
    whenValid_getD hflag, whenValid_getD hdata]

end

/-- Settles O22: the status and each valid field are read back from their bits. -/
theorem decodeOfEncodeIsTheResponse : Obligations.DecodeOfEncodeIsTheResponse :=
  ⟨fun _ _ x hwf => decodeKRsp_encodeKRsp hwf x, fun _ _ x hwf => decodePRsp_encodePRsp hwf x,
    fun _ _ x hwf => decodeCRsp_encodeCRsp hwf x⟩

/-! ### The operands of trace lines (R54, R55) -/

/-- A negative number and the 16-bit number it stands for are one word. -/
theorem ofInt_add_65536 (v : Int) : BitVec.ofInt 16 (v + 65536) = BitVec.ofInt 16 v := by
  apply BitVec.eq_of_toNat_eq
  simp only [BitVec.toNat_ofInt]
  omega

theorem ofInt_two_bytes (lo hi : Nat) : BitVec.ofInt 16 (hi * 256 + lo) = BitVec.ofNat 16 (hi * 256 + lo) := by
  rw [← BitVec.ofInt_natCast]
  push_cast
  rfl

theorem traceLow_two_bytes (lo hi : Nat) : traceLow (hi * 256 + lo) = traceByte lo := by
  apply BitVec.eq_of_toNat_eq
  simp only [traceLow, traceByte, ofInt_two_bytes, BitVec.extractLsb'_toNat, BitVec.toNat_ofNat, Nat.shiftRight_zero]
  omega

/-- The high byte, where the low one does not carry into it. -/
theorem traceHigh_two_bytes {lo : Nat} (hlo : lo < 256) (hi : Nat) : traceHigh (hi * 256 + lo) = traceByte hi := by
  apply BitVec.eq_of_toNat_eq
  simp only [traceHigh, traceByte, ofInt_two_bytes, BitVec.extractLsb'_toNat, BitVec.toNat_ofNat,
    Nat.shiftRight_eq_div_pow]
  omega

theorem byteOk_iff {b : Nat} : byteOk b = true ↔ b < 256 := decide_eq_true_iff

/-- Settles O25: the low and the high byte of the numbers in a trace line. -/
theorem traceOperandsAssembleLowByteFirst : Obligations.TraceOperandsAssembleLowByteFirst := by
  refine ⟨fun v s _ _ => ?_, fun lo hi s hwf => ?_, fun x0 x1 y0 y1 z0 z1 s hwf => ?_⟩
  · simp only [traceEvents, traceLow, traceHigh, ofInt_add_65536]
  · simp only [TraceLine.wf, Bool.and_eq_true, byteOk_iff] at hwf
    obtain ⟨hlo, _⟩ := hwf
    simp only [traceEvents, traceLow_two_bytes, traceHigh_two_bytes hlo, and_self]
  · simp only [TraceLine.wf, Bool.and_eq_true, byteOk_iff] at hwf
    obtain ⟨⟨⟨⟨⟨hx0, _⟩, hy0⟩, _⟩, hz0⟩, _⟩ := hwf
    simp only [traceEvents, traceLow_two_bytes, traceHigh_two_bytes hx0, traceHigh_two_bytes hy0,
      traceHigh_two_bytes hz0]

end Sys2Proof

/-! The reference circuit (spec 43_cdc_synchronisers.md R95, R96). A register that catches a changing gray code holds the
old or the new code. What a port serves on an edge moves `WR` and `RD` forward and never the views (`Served`), so each
synchroniser stage still lies between the one after it and the index it comes from (`Between`), and the views then move
to the last stages as one SYNCR and one SYNCW step of the contract do. -/

namespace Sys2Proof.Machine

/-! ### Catching a gray code (R95) -/

/-- One bit of `capture`: the mask decides whether a change is seen. -/
theorem caught_bit (old new mask : Bool) : (new && mask || old && !mask) = (old ^^ ((old ^^ new) && mask)) := by
  revert old new mask
  decide

theorem capture_eq_xor (mask old new : BitVec 8) : capture mask old new = old ^^^ ((old ^^^ new) &&& mask) := by
  apply BitVec.eq_of_getLsbD_eq
  intro i hi
  simp only [capture, BitVec.getLsbD_or, BitVec.getLsbD_and, BitVec.getLsbD_not, BitVec.getLsbD_xor, hi, decide_true,
    Bool.true_and]
  exact caught_bit _ _ _

/-- Of two codes that differ in one bit, that bit alone decides what is caught. -/
theorem capture_of_one_bit {old new : BitVec 8} {i : Nat} (h : old ^^^ new = 1#8 <<< i) (mask : BitVec 8) :
    capture mask old new = old ∨ capture mask old new = new := by
  have hbit : (1#8 <<< i) &&& mask = if mask.getLsbD i then 1#8 <<< i else 0#8 := BitVec.twoPow_and mask i
  rw [capture_eq_xor, h, hbit]
  split
  · right
    rw [← h, ← BitVec.xor_assoc, BitVec.xor_self, BitVec.zero_xor]
  · exact .inl BitVec.xor_zero

/-- Settles O52: neighbouring codes differ in one bit. -/
theorem caughtGrayCodeIsOldOrNew : Obligations.CaughtGrayCodeIsOldOrNew := by
  intro b mask
  obtain ⟨i, _, hbit⟩ := exists_gray_xor_gray_succ_eq b
  exact capture_of_one_bit hbit mask

/-- What is caught of an index that stays or advances by one is the code of its old or its new value. -/
theorem exists_capture_gray_eq {old new : Index} (h : new = old ∨ new = advance old) (mask : BitVec 8) :
    ∃ b, capture mask (gray old) (gray new) = gray b ∧ (b = old ∨ b = new) := by
  rcases h with rfl | rfl
  · refine ⟨new, ?_, .inl rfl⟩
    rw [capture_eq_xor, BitVec.xor_self, BitVec.zero_and, BitVec.xor_zero]
  · rcases caughtGrayCodeIsOldOrNew old mask with hold | hnew
    · exact ⟨old, hold, .inl rfl⟩
    · exact ⟨advance old, hnew, .inr rfl⟩

/-- Settles O53: all registers and indices are 0. -/
theorem circuitInvariantHoldsAfterReset : Obligations.CircuitInvariantHoldsAfterReset :=
  ⟨RingInv.reset, rfl, by decide, by decide, by decide, by decide, by decide, by decide⟩

/-! ### Between on the ring of indices -/

/-- Going round from `a` one meets `b` and then `c`, without completing the circle. -/
def Between (a b c : Index) : Prop := ringDist a b + ringDist b c = ringDist a c

namespace Between

variable {a b c d : Index}

theorem left (a b : Index) : Between a a b := by rw [Between, ringDist_self, Nat.zero_add]

theorem right (a b : Index) : Between a b b := by rw [Between, ringDist_self, Nat.add_zero]

theorem dist_le (h : Between a b c) : ringDist a b ≤ ringDist a c := by
  rw [Between] at h
  omega

theorem of_dist_le (h : ringDist a b ≤ ringDist a c) : Between a b c := by
  have hrest := ringDist_advanceBy_left h
  rw [advanceBy_ringDist] at hrest
  rw [Between, hrest]
  omega

/-- The far end moves on within the circle. -/
theorem trans (hb : Between a b c) (hc : Between a c d) : Between a b d := of_dist_le (hb.dist_le.trans hc.dist_le)

/-- The near end moves on up to the first point. -/
theorem tail (hb : Between a b c) (hc : Between a c d) : Between b c d := by
  have hbd := hb.trans hc
  rw [Between] at hb hc hbd ⊢
  omega

/-- The first point moves on towards the far end. -/
theorem of_tail (hb : Between a b d) (hc : Between b c d) : Between a c d := by
  rw [Between] at hb hc ⊢
  have := ringDist_le a d
  have := ringDist_trans (a := a) (b := b) (c := c) (by omega)
  omega

end Between

/-- Two points in a row between two ends. -/
theorem between_chain_iff {a b c d : Index} :
    ringDist a b + ringDist b c + ringDist c d = ringDist a d ↔ Between a b d ∧ Between b c d := by
  constructor
  · intro h
    have := ringDist_le a d
    have hbd := ringDist_trans (a := b) (b := c) (c := d) (by omega)
    exact ⟨by rw [Between]; omega, hbd.symm⟩
  · rintro ⟨hb, hc⟩
    rw [Between] at hb hc
    omega

/-- Where `a` still has room for one more step from `b`. -/
theorem between_advance {a b : Index} (h : ringDist a b ≠ 255) : Between a b (advance b) := by
  have := ringDist_le a b
  have hnext : ringDist a (advance b) = ringDist a b + 1 := ringDist_advanceBy_right (n := 1) (by omega)
  exact .of_dist_le (by omega)

/-! ### What the ports serve on an edge -/

/-- From `s` to `t` the ports may have moved `WR` by one and `RD` forward, and nothing went wrong: the invariant holds,
the block is out of reset, the views stand, and neither index has gone past the view that follows it. -/
structure Served (s t : State) : Prop where
  inv : RingInv t
  running : t.outOfReset = true
  rdv : t.rdv = s.rdv
  wrv : t.wrv = s.wrv
  wr_eq : t.wr = s.wr ∨ t.wr = advance s.wr
  wr : Between s.wrv s.wr t.wr
  rd : Between s.rdv s.rd t.rd

namespace Served

variable {s t u : State}

theorem refl (hi : RingInv s) (ho : s.outOfReset = true) : Served s s :=
  ⟨hi, ho, rfl, rfl, .inl rfl, .right _ _, .right _ _⟩

/-- One port and then the other: the one has left `RD` alone and the other `WR`. -/
theorem trans (h : Served s t) (hrd : t.rd = s.rd) (h' : Served t u) (hwr : u.wr = t.wr) : Served s u where
  inv := h'.inv
  running := h'.running
  rdv := h'.rdv.trans h.rdv
  wrv := h'.wrv.trans h.wrv
  wr_eq := by rw [hwr]; exact h.wr_eq
  wr := by rw [hwr]; exact h.wr
  rd := by rw [← hrd, ← h.rdv]; exact h'.rd

end Served

section
variable {s t : State}

/-- The view `WRV` lags behind `WR` by less than the producer sees used. -/
theorem RingInv.between_wrv_wr_advance (hi : RingInv s) (hf : fullP s = false) : Between s.wrv s.wr (advance s.wr) := by
  have hroom : ringDist s.rdv s.wr ≠ 255 := by rw [Ne, ← fullP_iff, hf]; decide
  have hused := hi.dist_rdv_wr
  have hview := hi.view
  have hring := hi.ring
  exact between_advance (by omega)

/-- `RD` moves on within the visible part, and so not past `RDV`. -/
theorem RingInv.between_rdv_rd_advanceBy {n : Nat} (hi : RingInv s) (hn : n ≤ ringDist s.rd s.wrv) :
    Between s.rdv s.rd (advanceBy s.rd n) := by
  have hring := hi.ring
  have hseen := hi.dist_rd_wrv_le
  have hmoved : ringDist s.rdv (advanceBy s.rd n) = ringDist s.rdv s.rd + n := ringDist_advanceBy_right (by omega)
  exact .of_dist_le (by omega)

theorem served_of_exec {i : Instr} (hi : RingInv s) (ho : s.outOfReset = true) (hti : RingInv t)
    (h : exec i s = .next t) : Served s t := by
  have hsurr := sameSurroundings_of_exec h
  have hto := hsurr.outOfReset ho
  rcases exec_cases h with ⟨b, rfl, hf, rfl⟩ | ⟨rfl, he, b, _, rfl⟩ | ⟨rfl, rfl⟩ | ha
  · exact ⟨hti, hto, hsurr.rdv, hsurr.wrv, .inr rfl, hi.between_wrv_wr_advance hf, .right _ _⟩
  · have hseen : 1 ≤ ringDist s.rd s.wrv := Nat.one_le_iff_ne_zero.mpr (dist_rd_wrv_ne_zero he)
    exact ⟨hti, hto, hsurr.rdv, hsurr.wrv, .inl rfl, .right _ _, hi.between_rdv_rd_advanceBy hseen⟩
  · have hmoved := hi.between_rdv_rd_advanceBy le_rfl
    rw [advanceBy_ringDist] at hmoved
    exact ⟨hti, hto, hsurr.rdv, hsurr.wrv, .inl rfl, .right _ _, hmoved⟩
  · obtain ⟨_, hwr, hrd, _, _⟩ := ha.sameArch
    exact ⟨hti, hto, hsurr.rdv, hsurr.wrv, .inl hwr, by rw [hwr]; exact .right _ _, by rw [hrd]; exact .right _ _⟩

/-- Under the invariant a port always serves what stands on it at an edge, and the block's event for it is the same.
Ports K and C leave `WR` alone, ports K and P leave `RD`. -/
theorem exists_served {α : Type} (p : Port) {mk : α → Request} (hp : ∀ x, (mk x).port = p) (word : Option α)
    (hi : RingInv s) (ho : s.outOfReset = true) :
    ∃ t, serveIfAny (word.map mk) s = .next t ∧ happenAll (askedOn (word.map mk)) s = .next t ∧ Served s t ∧
      (p ≠ .P → t.wr = s.wr) ∧ (p ≠ .C → t.rd = s.rd) := by
  cases word with
  | none => exact ⟨s, rfl, rfl, .refl hi ho, fun _ => rfl, fun _ => rfl⟩
  | some x =>
    obtain ⟨t, ht⟩ := hi.exec_completes (decode (mk x))
    have hq : happen (.request (mk x)) s = .next t := (happen_request ho).trans ht
    have hport : (decode (mk x)).port = p := (decode_port (mk x)).trans (hp x)
    exact ⟨t, hq, happenAll_cons_of hq, served_of_exec hi ho (hi.happen hq) ht,
      fun hne => wr_of_exec (hport ▸ hne) ht, fun hne => rd_of_exec (hport ▸ hne) ht⟩

/-! ### The views move by the contract -/

/-- SYNCR and SYNCW, each to a point between its view and its index. -/
theorem happenAll_sync {a b : Index} (hr : s.rstN = true) (ha : Between s.rdv a s.rd) (hb : Between s.wrv b s.wr) :
    happenAll [.syncr (ringDist s.rdv a), .syncw (ringDist s.wrv b)] s = .next (setRdv a (setWrv b s)) := by
  have hsyncr := happen_syncr_of_le hr ha.dist_le
  have hsyncw := happen_syncw_of_le (s := setRdv a s) hr hb.dist_le
  rw [advanceBy_ringDist] at hsyncr
  rw [setRdv_wrv, advanceBy_ringDist] at hsyncw
  rw [happenAll_cons_of hsyncr, happenAll_cons_of hsyncw]
  rfl

theorem RingInv.setViews {a b : Index} (hi : RingInv s) (ha : Between s.rdv a s.rd) (hb : Between s.wrv b s.wr) :
    RingInv (setRdv a (setWrv b s)) := by
  have hw := hi.setWrv_advanceBy hb.dist_le
  rw [advanceBy_ringDist] at hw
  have hwr := hw.setRdv_advanceBy (n := ringDist s.rdv a) ha.dist_le
  rwa [setWrv_rdv, advanceBy_ringDist] at hwr

theorem rstN_of_outOfReset (ho : s.outOfReset = true) : s.rstN = true := (outOfReset_iff.mp ho).1

end

/-! ### The circuit from edge to edge -/

/-- The circuit after an edge: the ports have served `t`, the views decode the last stages, and every register holds
what the invariant asks for. -/
structure EdgeDone (c : Circuit) (t : State) (c' : Circuit) : Prop where
  served : Served c.core t
  core : c'.core = setRdv (ungray c'.t2) (setWrv (ungray c'.s2) t)
  wrg : c'.wrg = gray t.wr
  rdg : c'.rdg = gray c'.rdx
  viewR : Between t.rdv (ungray c'.t2) t.rd
  viewW : Between t.wrv (ungray c'.s2) t.wr
  stagesW : Between (ungray c'.s2) (ungray c'.s1) t.wr
  stagesR : Between (ungray c'.t2) (ungray c'.t1) t.rd ∧ Between (ungray c'.t1) c'.rdx t.rd

section
variable {c c' : Circuit} {t : State}

namespace EdgeDone

theorem inv (h : EdgeDone c t c') : CircuitInv c' := by
  have hcore := h.core
  refine ⟨?_, ?_, ?_, h.rdg, ?_, ?_, ?_, ?_⟩
  · rw [hcore]
    exact h.served.inv.setViews h.viewR h.viewW
  · rw [hcore]
    exact h.served.running
  · rw [hcore]
    exact h.wrg
  · rw [hcore]
    rfl
  · rw [hcore]
    rfl
  · rw [hcore]
    exact h.stagesW
  · rw [hcore]
    exact between_chain_iff.mpr h.stagesR

/-- The requests of the edge and then one SYNCR and one SYNCW step lead to the block of the circuit after the edge. -/
theorem meets_contract {e : Edge} (h : EdgeDone c t c') (hstep : c.step e = .next c')
    (hserved : happenAll e.requests c.core = .next t) :
    ∃ (c' : Circuit) (n m : Nat), c.step e = .next c' ∧ CircuitInv c' ∧
      happenAll (e.requests ++ [.syncr n, .syncw m]) c.core = .next c'.core := by
  refine ⟨c', ringDist t.rdv (ungray c'.t2), ringDist t.wrv (ungray c'.s2), hstep, h.inv, ?_⟩
  rw [happenAll_append hserved, happenAll_sync (rstN_of_outOfReset h.served.running) h.viewR h.viewW, h.core]

end EdgeDone

namespace CircuitInv

/-- `WRG` is loaded with the code of the index after the edge. -/
theorem nextWrg_eq (hc : CircuitInv c) (t : State) : nextWrg c t = gray t.wr := by
  unfold nextWrg
  split
  · next hkept => rw [hc.wrg, hkept]
  · rfl

/-- `RDX` walks one step towards `RD`, or has reached it. -/
theorem nextRdx_eq_or (c : Circuit) : nextRdx c = c.rdx ∨ nextRdx c = advance c.rdx := by
  unfold nextRdx
  split
  · exact .inl rfl
  · exact .inr rfl

theorem between_nextRdx (c : Circuit) : Between c.rdx (nextRdx c) c.core.rd := by
  unfold nextRdx
  split
  · exact .left _ _
  · next hbehind =>
    have hpos : ringDist c.rdx c.core.rd ≠ 0 := fun h => hbehind (ringDist_eq_zero.mp h)
    exact .of_dist_le (ringDist_advanceBy_le (n := 1) (Nat.one_le_iff_ne_zero.mpr hpos))

/-! The stages of the two chains, after the ports have moved `WR` and `RD` on. -/

theorem between_s1 (hc : CircuitInv c) (ht : Served c.core t) : Between (ungray c.s2) (ungray c.s1) t.wr :=
  Between.trans hc.stagesW (hc.wrv ▸ ht.wr)

/-- Where `S1` has become the last stage, the old `WR` lies between it and the new one. -/
theorem between_s1_wr (hc : CircuitInv c) (ht : Served c.core t) : Between (ungray c.s1) c.core.wr t.wr :=
  Between.tail hc.stagesW (hc.wrv ▸ ht.wr)

theorem between_t1 (hc : CircuitInv c) (ht : Served c.core t) : Between (ungray c.t2) (ungray c.t1) t.rd :=
  (between_chain_iff.mp hc.stagesR).1.trans (hc.rdv ▸ ht.rd)

/-- Where `T1` has become the last stage, the old `RD` lies between it and the new one. -/
theorem between_t1_rd (hc : CircuitInv c) (ht : Served c.core t) : Between (ungray c.t1) c.core.rd t.rd :=
  (between_chain_iff.mp hc.stagesR).1.tail (hc.rdv ▸ ht.rd)

theorem between_rdx (hc : CircuitInv c) (ht : Served c.core t) : Between (ungray c.t1) c.rdx t.rd :=
  (between_chain_iff.mp hc.stagesR).2.trans (hc.between_t1_rd ht)

theorem between_rdx_rd (hc : CircuitInv c) (ht : Served c.core t) : Between c.rdx c.core.rd t.rd :=
  (between_chain_iff.mp hc.stagesR).2.tail (hc.between_t1_rd ht)

/-- `RDX` one step on still lies before `RD`. -/
theorem between_rdx_nextRdx (hc : CircuitInv c) (ht : Served c.core t) : Between c.rdx (nextRdx c) t.rd :=
  (between_nextRdx c).trans (hc.between_rdx_rd ht)

theorem between_t1_nextRdx (hc : CircuitInv c) (ht : Served c.core t) : Between (ungray c.t1) (nextRdx c) t.rd :=
  (hc.between_rdx ht).of_tail (hc.between_rdx_nextRdx ht)

/-- The views of the block, before they move, are the last stages. -/
theorem rdv_eq (hc : CircuitInv c) (ht : Served c.core t) : t.rdv = ungray c.t2 := ht.rdv.trans hc.rdv

theorem wrv_eq (hc : CircuitInv c) (ht : Served c.core t) : t.wrv = ungray c.s2 := ht.wrv.trans hc.wrv

/-! The four edges. -/

theorem edgeDone_clkK (hc : CircuitInv c) (ht : Served c.core t) (hwr : t.wr = c.core.wr) :
    EdgeDone c t { c with core := t } where
  served := ht
  core := by
    change t = setRdv (ungray c.t2) (setWrv (ungray c.s2) t)
    rw [← hc.rdv_eq ht, ← hc.wrv_eq ht]
    rfl
  wrg := by rw [hwr]; exact hc.wrg
  rdg := hc.rdg
  viewR := by rw [hc.rdv_eq ht]; exact .left _ _
  viewW := by rw [hc.wrv_eq ht]; exact .left _ _
  stagesW := hc.between_s1 ht
  stagesR := ⟨hc.between_t1 ht, hc.between_rdx ht⟩

theorem edgeDone_clkP (hc : CircuitInv c) (ht : Served c.core t) : EdgeDone c t (clockedP c c.rdg t) where
  served := ht
  core := by
    change setRdv (ungray c.t1) t = setRdv (ungray c.t1) (setWrv (ungray c.s2) t)
    rw [← hc.wrv_eq ht]
    rfl
  wrg := hc.nextWrg_eq t
  rdg := hc.rdg
  viewR := by rw [hc.rdv_eq ht]; exact hc.between_t1 ht
  viewW := by rw [hc.wrv_eq ht]; exact .left _ _
  stagesW := hc.between_s1 ht
  stagesR := by
    change Between (ungray c.t1) (ungray c.rdg) t.rd ∧ Between (ungray c.rdg) c.rdx t.rd
    rw [hc.rdg, ungray_gray]
    exact ⟨hc.between_rdx ht, .left _ _⟩

theorem edgeDone_clkC (hc : CircuitInv c) (ht : Served c.core t) (hwr : t.wr = c.core.wr) :
    EdgeDone c t (clockedC c c.wrg t) where
  served := ht
  core := by
    change setWrv (ungray c.s1) t = setRdv (ungray c.t2) (setWrv (ungray c.s1) t)
    rw [← hc.rdv_eq ht]
    rfl
  wrg := by rw [hwr]; exact hc.wrg
  rdg := rfl
  viewR := by rw [hc.rdv_eq ht]; exact .left _ _
  viewW := by rw [hc.wrv_eq ht]; exact hc.between_s1 ht
  stagesW := by
    change Between (ungray c.s1) (ungray c.wrg) t.wr
    rw [hc.wrg, ungray_gray]
    exact hc.between_s1_wr ht
  stagesR := ⟨hc.between_t1 ht, hc.between_t1_nextRdx ht⟩

/-- Where both edges coincide, `S1` catches the old or the new `WR`, and `T1` the old or the new `RDX`. -/
theorem edgeDone_clkPC (hc : CircuitInv c) (ht : Served c.core t) (newW newR : BitVec 8) :
    EdgeDone c t (clockedPC c newW newR t) where
  served := ht
  core := rfl
  wrg := hc.nextWrg_eq t
  rdg := rfl
  viewR := by rw [hc.rdv_eq ht]; exact hc.between_t1 ht
  viewW := by rw [hc.wrv_eq ht]; exact hc.between_s1 ht
  stagesW := by
    change Between (ungray c.s1) (ungray (capture newW c.wrg (nextWrg c t))) t.wr
    obtain ⟨b, hb, hcaught⟩ := exists_capture_gray_eq ht.wr_eq newW
    rw [hc.nextWrg_eq, hc.wrg, hb, ungray_gray]
    rcases hcaught with rfl | rfl
    · exact hc.between_s1_wr ht
    · exact .right _ _
  stagesR := by
    change Between (ungray c.t1) (ungray (capture newR c.rdg (gray (nextRdx c)))) t.rd ∧
      Between (ungray (capture newR c.rdg (gray (nextRdx c)))) (nextRdx c) t.rd
    obtain ⟨b, hb, hcaught⟩ := exists_capture_gray_eq (nextRdx_eq_or c) newR
    rw [hc.rdg, hb, ungray_gray]
    rcases hcaught with rfl | rfl
    · exact ⟨hc.between_rdx ht, hc.between_rdx_nextRdx ht⟩
    · exact ⟨hc.between_t1_nextRdx ht, .left _ _⟩

end CircuitInv

end

/-- Settles O54: each kind of edge, with what its ports serve. -/
theorem circuitMeetsTheContract : Obligations.CircuitMeetsTheContract := by
  intro c e hc
  cases e with
  | clkK word =>
    obtain ⟨t, hserve, hhappen, ht, hwr, _⟩ := exists_served .K (mk := .k) (fun _ => rfl) word hc.core hc.running
    refine (hc.edgeDone_clkK ht (hwr (by decide))).meets_contract ?_ hhappen
    simp only [Circuit.step, hserve]
  | clkP word =>
    obtain ⟨t, hserve, hhappen, ht, _⟩ := exists_served .P (mk := .p) (fun _ => rfl) word hc.core hc.running
    refine (hc.edgeDone_clkP ht).meets_contract ?_ hhappen
    simp only [Circuit.step, hserve]
  | clkC word =>
    obtain ⟨t, hserve, hhappen, ht, hwr, _⟩ := exists_served .C (mk := .c) (fun _ => rfl) word hc.core hc.running
    refine (hc.edgeDone_clkC ht (hwr (by decide))).meets_contract ?_ hhappen
    simp only [Circuit.step, hserve]
  | clkPC pword cword newW newR =>
    obtain ⟨t, hserveP, hhappenP, ht, _, hrd⟩ :=
      exists_served .P (mk := .p) (fun _ => rfl) pword hc.core hc.running
    obtain ⟨u, hserveC, hhappenC, hu, hwr, _⟩ :=
      exists_served .C (mk := .c) (fun _ => rfl) cword ht.inv ht.running
    have hboth : Served c.core u := ht.trans (hrd (by decide)) hu (hwr (by decide))
    have hhappen : happenAll (askedOn (pword.map .p) ++ askedOn (cword.map .c)) c.core = .next u :=
      (happenAll_append hhappenP).trans hhappenC
    refine (hc.edgeDone_clkPC hboth newW newR).meets_contract ?_ hhappen
    simp only [Circuit.step, hserveP, hserveC]

end Sys2Proof.Machine
